-- ==== Sys2Proof/Word.lean ====
section
/-! DEFINITION. The machine's words: bytes, 16-bit words, 12-bit constants, and the two kinds of index that are always
in range (a general register, a key). Every value is an unsigned integer of a stated width (R18). -/

namespace Sys2Proof

/-- Eight bits: a memory byte, a general register, a timer (R18, R20, R25, R26). -/
abbrev Byte := BitVec 8

/-- Sixteen bits: an opcode, the index register, the program counter, a return address (R18, R22, R23, R24). -/
abbrev Word := BitVec 16

/-- The field NNN, a "12-bit address/constant field" (R61). -/
abbrev Addr12 := BitVec 12

/-- The index of a general register: always 4 bits, so never out of range (R20, R37(c)). -/
abbrev Reg := Fin 16

/-- The index of a key, 0x0 to 0xF (R29). -/
abbrev Key := Fin 16

end Sys2Proof
end

