-- ==== Sys2Proof/Config.lean ====
section
/-! DEFINITION. What one instance of the machine fixes for a whole run (R10 to R15, R34), and the one free value, the
byte on port `rand` (R130). A claim about every configuration quantifies over `Config`. -/

namespace Sys2Proof

/-- EXT_MODE, "a single enum/flag": original semantics (0) or extended semantics (1) (R13). -/
inductive ExtMode where
  | original
  | extended
  deriving DecidableEq, Repr

/-- STACK_CAPACITY, which the spec leaves open between 12 and 16 and nothing else (R10, decision D1). -/
inductive StackCapacity where
  | c12
  | c13
  | c14
  | c15
  | c16
  deriving DecidableEq, Repr

/-- The number of return addresses the call stack holds (R10). -/
def StackCapacity.toNat : StackCapacity → Nat
  | .c12 => 12
  | .c13 => 13
  | .c14 => 14
  | .c15 => 15
  | .c16 => 16

/-- The configuration sampled at reset and the open parameters of the spec (R8, R10 to R13, R15). -/
structure Config where
  /-- EXT_MODE (R13). -/
  extMode : ExtMode
  /-- CLOCK_RATE in instructions per second (R12). -/
  clockRate : Nat
  /-- DISPLAY_W, the number of columns (R11). -/
  displayW : Nat
  /-- DISPLAY_H, the number of rows (R11). -/
  displayH : Nat
  /-- STACK_CAPACITY (R10). -/
  stackCapacity : StackCapacity
  /-- FONT, the 80 bytes copied to address 0 at reset (R8, R41). -/
  font : Vector Byte 80
  deriving DecidableEq, Repr

/-- The values a configuration may hold: CLOCK_RATE >= 1 (R12), DISPLAY_W >= 1 and DISPLAY_H >= 1 (R11). The other
fields are legal by their types. -/
def Config.legal (c : Config) : Bool :=
  decide (1 ≤ c.clockRate) && decide (1 ≤ c.displayW) && decide (1 ≤ c.displayH)

/-- FREE VALUE (log entry 3). The byte on port `rand` at the n-th execution of RND: "an arbitrary value 0 to 255, under
no law" (R130, decision D10). It has no body, so no proof can see it. -/
opaque Config.randByte : Nat → Byte

end Sys2Proof
end

