-- ==== Sys2Proof/Machine/ResetConfig.lean ====
section
/-! DEFINITION. The configuration `State.reset` is built with: the spec's defaults (R11, R12, R13), the font the spec
proposes (R41), and the smallest stack capacity (log entries 1 and 2). -/

namespace Sys2Proof.Machine

/-- Glyphs 0 to 7 of the proposed font (R41, decision D14; from general knowledge, log entry 2). -/
def glyphs0to7 : List (List Byte) :=
  [[0xF0#8, 0x90#8, 0x90#8, 0x90#8, 0xF0#8],
   [0x20#8, 0x60#8, 0x20#8, 0x20#8, 0x70#8],
   [0xF0#8, 0x10#8, 0xF0#8, 0x80#8, 0xF0#8],
   [0xF0#8, 0x10#8, 0xF0#8, 0x10#8, 0xF0#8],
   [0x90#8, 0x90#8, 0xF0#8, 0x10#8, 0x10#8],
   [0xF0#8, 0x80#8, 0xF0#8, 0x10#8, 0xF0#8],
   [0xF0#8, 0x80#8, 0xF0#8, 0x90#8, 0xF0#8],
   [0xF0#8, 0x10#8, 0x20#8, 0x40#8, 0x40#8]]

/-- Glyphs 8 to F of the proposed font (R41). -/
def glyphs8toF : List (List Byte) :=
  [[0xF0#8, 0x90#8, 0xF0#8, 0x90#8, 0xF0#8],
   [0xF0#8, 0x90#8, 0xF0#8, 0x10#8, 0xF0#8],
   [0xF0#8, 0x90#8, 0xF0#8, 0x90#8, 0x90#8],
   [0xE0#8, 0x90#8, 0xE0#8, 0x90#8, 0xE0#8],
   [0xF0#8, 0x80#8, 0x80#8, 0x80#8, 0xF0#8],
   [0xE0#8, 0x90#8, 0x90#8, 0x90#8, 0xE0#8],
   [0xF0#8, 0x80#8, 0xF0#8, 0x80#8, 0xF0#8],
   [0xF0#8, 0x80#8, 0xF0#8, 0x80#8, 0x80#8]]

/-- The font the spec proposes: glyph g is the five bytes at 5g (R8, R41). -/
def conventionalFont : Vector Byte 80 :=
  ⟨(glyphs0to7 ++ glyphs8toF).flatten.toArray, by decide⟩

/-- EXT_MODE 0, 600 instructions per second, 64 by 32 cells (R11, R12, R13); capacity 12, the value for which every
overflow of a larger stack is an overflow too (R10, decision D1). -/
def defaultConfig : Config :=
  { extMode := .original
    clockRate := 600
    displayW := 64
    displayH := 32
    stackCapacity := .c12
    font := conventionalFont }

end Sys2Proof.Machine
end

