-- ==== Sys2Proof/Machine/State.lean ====
section
/-! DEFINITION. The state of the machine (R20 to R32, R34, R36), the fatal conditions and refusals a step can end in
(R150), and the state after reset (R35, R180). -/

namespace Sys2Proof.Machine

/-- Memory as the list of the bytes that differ from their reset contents, by rising address (R40, R41). -/
abbrev Memory := List Host.Cell

/-- The display buffer, row by row from the top edge, each row from the left edge; true is a lit cell (R27). -/
abbrev Display := List (List Bool)

/-- The execution-state tag (R30). -/
inductive ExecState where
  | running
  | paused
  | quit
  deriving DecidableEq, Repr

/-- The two host events that act at an iteration boundary (R168). -/
inductive HostEvent where
  | pauseToggle
  | quit
  deriving DecidableEq, Repr

/-- One thing the host does between two steps (R17, R171, R172). -/
inductive HostInput where
  /-- `keys(k)`: bit i of k is the new level of key i (R171). -/
  | keys (k : Word)
  /-- `pause_toggle` or `quit` is raised (R168). -/
  | event (e : HostEvent)
  deriving DecidableEq, Repr

/-- The fatal conditions (R150, R159). The argument is what the spec's `raise` carries for the `fault` port. A faulting
step has no successor state (R163). -/
inductive Fault where
  /-- Raised by CALL when sp = STACK_CAPACITY (R151). Safe: the spec's own outcome. -/
  | stackOverflow
  /-- Raised by RET when sp = 0 (R152). Safe: the spec's own outcome. -/
  | stackUnderflow
  /-- Raised by DRW, BCD, STM and LDM on a data address above 4095 (R153, decision D2). Safe: the original goes on. -/
  | memoryOutOfRange (addr : Nat)
  /-- Raised by the fetch when pc >= 4094 (R154, decision D3). Safe: the original goes on. -/
  | pcOutOfRange (pc : Nat)
  /-- Raised by SKP and SKNP when V[X] > 15 (R155, decision D4). Safe: the original goes on. -/
  | keyIndexOutOfRange (index : Nat)
  /-- Raised by `load` when the ROM is longer than 3584 bytes (R156). Safe: the spec's own outcome. -/
  | romTooLarge
  /-- Raised by `load` when there are no ROM bytes to load (R157). Safe: no machine exists. -/
  | romUnreadable
  deriving DecidableEq, Repr

/-- Why the model gives no meaning. -/
inductive Refusal where
  /-- Raised by `exec` for an instruction with no meaning yet. Safe: nothing can be proved of it. -/
  | notModelled (mnemonic : String)
  /-- Raised by `load` for a configuration outside the ranges of R11 and R12, of which the spec says nothing. Safe. -/
  | illegalConfiguration
  deriving DecidableEq, Repr

/-- The machine. Everything R20 to R32 name is here; `cfg`, `hostInputs`, `pendingEvents` and `randDraws` are the
model's own fields (log entries 1, 3, 4 and 5). -/
structure State where
  /-- The configuration sampled at reset and the open parameters (R10 to R15, R34); no step changes it. -/
  cfg : Config
  /-- Main memory, 4096 bytes (R6, R40). -/
  mem : Memory
  /-- V0 to VF (R20); VF is the only flag (R21). -/
  v : Vector Byte 16
  /-- The index register I (R22). -/
  i : Word
  /-- The program counter (R23). -/
  pc : Word
  /-- The call stack's entries; only indices below STACK_CAPACITY are ever used (R24). -/
  stack : Vector Word 16
  /-- The stack cursor, the number of entries in use (R24). -/
  sp : Fin 17
  /-- DT, the delay timer (R25). -/
  dt : Byte
  /-- ST, the sound timer (R26). -/
  st : Byte
  /-- The display buffer (R27). -/
  display : Display
  /-- The redraw-needed flag (R28). -/
  redrawNeeded : Bool
  /-- The sixteen key levels, true = pressed (R29). -/
  keys : Vector Bool 16
  /-- The execution-state tag (R30). -/
  execState : ExecState
  /-- The key-wait latch of FX0A (R31). -/
  pendingKey : Option Key
  /-- Instruction steps taken since the last tick (R32). -/
  batchCount : Nat
  /-- Host events raised in the middle of an iteration, oldest first, waiting for its boundary (R168). -/
  pendingEvents : List HostEvent
  /-- What the host does before each of the coming steps, the next step first (R171, R172). -/
  hostInputs : List (List HostInput)
  /-- How many bytes RND has drawn from port `rand` (R130). -/
  randDraws : Nat
  deriving DecidableEq, Repr

/-- ENTRY, "the fixed entry offset (0x200)" (R7). -/
def entry : Nat := 0x200

/-- A display of `h` rows of `w` cells, all 0 (R35). -/
def blankDisplay (w h : Nat) : Display :=
  List.replicate h (List.replicate w false)

/-- The machine after `reset` with an empty ROM and configuration `c` (R35, R180). Memory lists nothing: the font and
the zeros are what unlisted addresses read as (`background`). -/
def State.initial (c : Config) : State :=
  { cfg := c
    mem := []
    v := Vector.replicate 16 0#8
    i := 0#16
    pc := BitVec.ofNat 16 entry
    stack := Vector.replicate 16 0#16
    sp := 0
    dt := 0#8
    st := 0#8
    display := blankDisplay c.displayW c.displayH
    redrawNeeded := false
    keys := Vector.replicate 16 false
    execState := .running
    pendingKey := none
    batchCount := 0
    pendingEvents := []
    hostInputs := []
    randDraws := 0 }

/-- The machine right after reset, default configuration, no ROM bytes placed (R35, R180, log entry 6). -/
def State.reset : State := State.initial defaultConfig

end Sys2Proof.Machine
end

