-- ==== Sys2Proof/Machine/Ops.lean ====
section
/-! DEFINITION. The operations over memory, registers, the stack and the other elements that the meanings are written
with (R19, R24, R42, R45), and the one way a fatal condition is raised (R163). -/

namespace Sys2Proof.Machine

/-- The outcome of a step or of one instruction. -/
abbrev Result := Host.Outcome State Fault Refusal

/-! ## Fatal conditions -/

/-- Raising a fatal condition: "Nothing is saved, no mode changes, control goes nowhere"; the step has no successor
state (R163). There is no return from it (R164). -/
def raise (f : Fault) : Result := .fault f

/-- The rest of a step, taken when what came before answered a next state. -/
def andThen (o : Result) (f : State → Result) : Result :=
  match o with
  | .next s => f s
  | .fault r => .fault r
  | .refused r => .refused r

/-! ## Memory -/

/-- The number of bytes of memory, MEM_SIZE (R6). -/
def memSize : Nat := 4096

/-- What an address reads as before anything is stored there: the font from address 0, then 0 (R35, R41). -/
def background (font : Vector Byte 80) (a : Nat) : Byte :=
  if h : a < 80 then font[a] else 0#8

/-- The byte listed for an address, if any. -/
def Memory.lookup : Memory → Nat → Option Byte
  | [], _ => none
  | (k, b) :: rest, a => if k = a then some b else Memory.lookup rest a

/-- List a byte for an address, keeping addresses strictly rising. -/
def Memory.put : Memory → Nat → Byte → Memory
  | [], a, b => [(a, b)]
  | (k, c) :: rest, a, b =>
    if a < k then (a, b) :: (k, c) :: rest
    else if a = k then (a, b) :: rest
    else (k, c) :: Memory.put rest a b

/-- Unlist an address. -/
def Memory.drop : Memory → Nat → Memory
  | [], _ => []
  | (k, c) :: rest, a => if k = a then Memory.drop rest a else (k, c) :: Memory.drop rest a

/-- The byte at an address (R42). -/
def Memory.read (font : Vector Byte 80) (m : Memory) (a : Nat) : Byte :=
  (Memory.lookup m a).getD (background font a)

/-- Store a byte: a byte equal to the reset contents is not listed, so equal memories are equal lists (R42). -/
def Memory.write (font : Vector Byte 80) (m : Memory) (a : Nat) (b : Byte) : Memory :=
  if b = background font a then Memory.drop m a else Memory.put m a b

/-- The canonical form, for the addresses from `lo` up: addresses strictly rise and stay inside memory, and no listed
byte equals what the address reads as unlisted. -/
def Memory.wfFrom (font : Vector Byte 80) : Nat → Memory → Bool
  | _, [] => true
  | lo, (a, b) :: rest =>
    decide (lo ≤ a) && decide (a < memSize) && decide (b ≠ background font a) && Memory.wfFrom font (a + 1) rest

/-- The canonical form of a whole memory. -/
def Memory.wf (font : Vector Byte 80) (m : Memory) : Bool :=
  Memory.wfFrom font 0 m

/-- memory[a] (R42). -/
def State.readByte (s : State) (a : Nat) : Byte :=
  Memory.read s.cfg.font s.mem a

/-- memory[a] <- b (R42). Every use stands behind `checkRange`. -/
def State.writeByte (s : State) (a : Nat) (b : Byte) : State :=
  { s with mem := Memory.write s.cfg.font s.mem a b }

/-- The check an instruction makes on its whole nominal range before its first write: if any of the `len` addresses from
`base` exceeds 4095, raise `MemoryOutOfRange(max(base, 4096))` (R42, R45, R153). Addresses are never wrapped or clamped.
With `len` 1 it is the check of `MemRead` and `MemWrite` themselves. -/
def checkRange (base len : Nat) (k : Result) : Result :=
  if 0 < len ∧ memSize < base + len then raise (.memoryOutOfRange (max base memSize)) else k

/-! ## General registers -/

/-- VF = V[15] (R21). -/
def vF : Reg := 15

/-- V[r] (R20). -/
def State.getV (s : State) (r : Reg) : Byte :=
  s.v[r.val]

/-- V[r] <- b (R20). -/
def State.setV (s : State) (r : Reg) (b : Byte) : State :=
  { s with v := s.v.set r.val b }

/-- The sixteen indices, rising: registers (R20) or keys (R29). -/
def allIndices : List (Fin 16) :=
  [0, 1, 2, 3, 4, 5, 6, 7, 8, 9, 10, 11, 12, 13, 14, 15]

/-- The registers V[0] .. V[x], rising: the range FX55 and FX65 move (R20). -/
def regsUpTo (x : Reg) : List Reg :=
  allIndices.take (x.val + 1)

/-- for r in rs: memory[base + r] <- V[r], ascending (R124). -/
def storeRegs (base : Nat) : List Reg → State → State
  | [], s => s
  | r :: rs, s => storeRegs base rs (s.writeByte (base + r.val) (s.getV r))

/-- for r in rs: V[r] <- memory[base + r], ascending (R125). -/
def loadRegs (base : Nat) : List Reg → State → State
  | [], s => s
  | r :: rs, s => loadRegs base rs (s.setV r (s.readByte (base + r.val)))

/-! ## Index register, program counter, timers -/

/-- I <- w (R22). -/
def State.setIndex (s : State) (w : Word) : State := { s with i := w }

/-- pc <- w (R23). -/
def State.setPc (s : State) (w : Word) : State := { s with pc := w }

/-- pc <- pc + 2, on 16 bits: the fetch's advance and a taken skip (R63, R98). -/
def State.advancePc (s : State) : State := s.setPc (s.pc + 2#16)

/-- pc <- pc − 2: FX0A's stall (R134). -/
def State.stallPc (s : State) : State := s.setPc (s.pc - 2#16)

/-- If the condition holds, pass over the next instruction (R98). -/
def State.skipIf (s : State) (c : Bool) : State :=
  if c then s.advancePc else s

/-- DT <- b (R25). -/
def State.setDelay (s : State) (b : Byte) : State := { s with dt := b }

/-- ST <- b (R26). -/
def State.setSound (s : State) (b : Byte) : State := { s with st := b }

/-! ## Call stack -/

/-- Push: if sp = STACK_CAPACITY raise `StackOverflow`, else stack[sp] <- w and sp <- sp + 1 (R24, R92). -/
def State.push (s : State) (w : Word) : Result :=
  if h : s.sp.val < s.cfg.stackCapacity.toNat ∧ s.sp.val < 16 then
    .next { s with stack := s.stack.set s.sp.val w h.2, sp := ⟨s.sp.val + 1, by omega⟩ }
  else raise .stackOverflow

/-- Pop into pc: if sp = 0 raise `StackUnderflow`, else sp <- sp − 1 and pc <- stack[sp] (R24, R90). -/
def State.popPc (s : State) : Result :=
  if h : s.sp.val = 0 then raise .stackUnderflow
  else .next { s with sp := ⟨s.sp.val - 1, by omega⟩, pc := s.stack[s.sp.val - 1]'(by omega) }

/-! ## Display, keys, port rand -/

/-- Replace the display buffer (R27). -/
def State.setDisplay (s : State) (d : Display) : State := { s with display := d }

/-- redraw_needed <- b (R28). -/
def State.setRedraw (s : State) (b : Bool) : State := { s with redrawNeeded := b }

/-- key[k] (R29). -/
def State.keyDown (s : State) (k : Key) : Bool := s.keys[k.val]

/-- The lowest index of a pressed key: "the smallest such k" (R134). -/
def State.lowestKeyDown (s : State) : Option Key :=
  allIndices.find? fun k => s.keyDown k

/-- Replace all sixteen key levels (R171). -/
def State.setKeys (s : State) (k : Vector Bool 16) : State := { s with keys := k }

/-- pending_key <- p (R31). -/
def State.setPendingKey (s : State) (p : Option Key) : State := { s with pendingKey := p }

/-- One byte has been drawn from port `rand` (R130, log entry 3). -/
def State.countDraw (s : State) : State := { s with randDraws := s.randDraws + 1 }

/-! ## Scheduler elements -/

/-- exec_state <- e (R30). -/
def State.setExecState (s : State) (e : ExecState) : State := { s with execState := e }

/-- batch_count <- n (R32). -/
def State.setBatchCount (s : State) (n : Nat) : State := { s with batchCount := n }

/-- Replace the host events waiting for the iteration boundary (R168). -/
def State.setPendingEvents (s : State) (l : List HostEvent) : State := { s with pendingEvents := l }

/-- Replace what the host does before the coming steps (R171). -/
def State.setHostInputs (s : State) (l : List (List HostInput)) : State := { s with hostInputs := l }

end Sys2Proof.Machine
end

