-- ==== Sys2Proof/Machine/Operands.lean ====
section
/-! DEFINITION. The operand forms (R71, R126): immediates are unsigned with no scaling, the effective address of a data
access is I plus a small offset, the shift source depends on EXT_MODE, a key operand is a register's value. -/

namespace Sys2Proof.Machine

/-- zext_16(NNN) (R71). -/
def zextAddr (nnn : Addr12) : Word := nnn.setWidth 16

/-- zext_16 of a byte (R71). -/
def zextByte (b : Byte) : Word := b.setWidth 16

/-- The base of every data access: I as an unbounded integer, "not reduced modulo 4096 or 65536" (R126). -/
def State.dataBase (s : State) : Nat := s.i.toNat

/-- BNNN's target: zext_16(NNN) + zext_16(V[0]) (R97). -/
def State.offsetTarget (s : State) (nnn : Addr12) : Word :=
  zextAddr nnn + zextByte (s.getV 0)

/-- The source of 8XY6 and 8XYE: V[Y] in mode 0, V[X] in mode 1 (R108, R110, R13). -/
def State.shiftSource (s : State) (x y : Reg) : Byte :=
  match s.cfg.extMode with
  | .original => s.getV y
  | .extended => s.getV x

/-- I after FX55 or FX65: advanced by X + 1 in mode 0, unchanged in mode 1 (R124, R125, R13). -/
def State.indexAfterMove (s : State) (x : Reg) : Word :=
  match s.cfg.extMode with
  | .original => s.i + BitVec.ofNat 16 (x.val + 1)
  | .extended => s.i

/-- I after FX29: 5·V[X], at most 1275 (R122). -/
def glyphAddress (b : Byte) : Word := 5#16 * zextByte b

/-- The start column or row of DRW: the register's value modulo the resolution (R81). -/
def startCoordinate (b : Byte) (size : Nat) : Nat := b.toNat % size

/-- The key a register value names; a value above 15 raises `KeyIndexOutOfRange` (R131, R132, R155). -/
def withKey (b : Byte) (k : Key → Result) : Result :=
  if h : b.toNat < 16 then k ⟨b.toNat, h⟩ else raise (.keyIndexOutOfRange b.toNat)

/-- The decimal digits of a byte: hundreds, tens, ones (R123). -/
def hundreds (b : Byte) : Byte := BitVec.ofNat 8 (b.toNat / 100)

/-- The tens digit (R123). -/
def tens (b : Byte) : Byte := BitVec.ofNat 8 (b.toNat / 10 % 10)

/-- The ones digit (R123). -/
def ones (b : Byte) : Byte := BitVec.ofNat 8 (b.toNat % 10)

end Sys2Proof.Machine
end

