-- ==== Sys2Proof/Machine/Flags.lean ====
section
/-! DEFINITION. The values VF takes as a flag (R21) and the arithmetic modulo 256 beside them (R111). The order in which
a meaning writes VF and its result is the meaning's own (R112). -/

namespace Sys2Proof.Machine

/-- 1 if the condition holds, else 0. -/
def flagByte (c : Bool) : Byte := if c then 1#8 else 0#8

/-- The exact sum, 0 to 510 (R106). -/
def exactSum (a b : Byte) : Nat := a.toNat + b.toNat

/-- Reduction modulo 256 (R111). -/
def mod256 (n : Nat) : Byte := BitVec.ofNat 8 n

/-- The difference modulo 256: a − b when a >= b, a − b + 256 otherwise (R111). -/
def wrappingSub (a b : Byte) : Byte := mod256 (a.toNat + 256 - b.toNat)

/-- Carry out of an addition: the sum exceeds 255 (R106). -/
def carryFlag (a b : Byte) : Byte := flagByte (decide (255 < exactSum a b))

/-- "Not borrow" of a subtraction a − b: a >= b (R107, R109). -/
def noBorrowFlag (a b : Byte) : Byte := flagByte (decide (b.toNat ≤ a.toNat))

/-- The bit a right shift by one pushes out, bit 0 (R108). -/
def lowBitFlag (a : Byte) : Byte := a &&& 1#8

/-- The bit a left shift by one pushes out, bit 7 (R110). -/
def highBitFlag (a : Byte) : Byte := (a &&& 0x80#8) >>> 7

/-- The collision flag of DRW (R81). -/
def collisionFlag (hit : Bool) : Byte := flagByte hit

/-- What 8XY1, 8XY2 and 8XY3 do last: VF <- 0 when EXT_MODE = 0 (R103, R104, R105). -/
def State.clearFlagInOriginal (s : State) : State :=
  match s.cfg.extMode with
  | .original => s.setV vF 0#8
  | .extended => s

end Sys2Proof.Machine
end

