-- ==== Sys2Proof/Machine/Alu.lean ====
section
/-! DEFINITION. Register load, arithmetic and logic (R100 to R112). The statements of each meaning run in the order the
rule writes them, each reading what the previous ones left (R112). -/

namespace Sys2Proof.Machine

/-- LD.I (R100). -/
def execLdI (x : Reg) (nn : Byte) (s : State) : Result := .next (s.setV x nn)

/-- ADD.I: no flag (R101). -/
def execAddI (x : Reg) (nn : Byte) (s : State) : Result :=
  .next (s.setV x (mod256 (exactSum (s.getV x) nn)))

/-- LD.R (R102). -/
def execLdR (x y : Reg) (s : State) : Result := .next (s.setV x (s.getV y))

/-- OR (R103). -/
def execOr (x y : Reg) (s : State) : Result :=
  .next (s.setV x (s.getV x ||| s.getV y)).clearFlagInOriginal

/-- AND (R104). -/
def execAnd (x y : Reg) (s : State) : Result :=
  .next (s.setV x (s.getV x &&& s.getV y)).clearFlagInOriginal

/-- XOR (R105). -/
def execXor (x y : Reg) (s : State) : Result :=
  .next (s.setV x (s.getV x ^^^ s.getV y)).clearFlagInOriginal

/-- ADD.R: the sum is held, VF is written, then the result (R106). -/
def execAddR (x y : Reg) (s : State) : Result :=
  let sum := exactSum (s.getV x) (s.getV y)
  .next ((s.setV vF (carryFlag (s.getV x) (s.getV y))).setV x (mod256 sum))

/-- SUB: VF is written, then the difference is taken from the registers as they stand (R107). -/
def execSub (x y : Reg) (s : State) : Result :=
  let t := s.setV vF (noBorrowFlag (s.getV x) (s.getV y))
  .next (t.setV x (wrappingSub (t.getV x) (t.getV y)))

/-- SHR: the source is read once, VF is written last (R108). -/
def execShr (x y : Reg) (s : State) : Result :=
  let src := s.shiftSource x y
  .next ((s.setV x (src >>> 1)).setV vF (lowBitFlag src))

/-- SUBN: VF is written, then the difference is taken from the registers as they stand (R109). -/
def execSubn (x y : Reg) (s : State) : Result :=
  let t := s.setV vF (noBorrowFlag (s.getV y) (s.getV x))
  .next (t.setV x (wrappingSub (t.getV y) (t.getV x)))

/-- SHL: the source is read once, VF is written last (R110). -/
def execShl (x y : Reg) (s : State) : Result :=
  let src := s.shiftSource x y
  .next ((s.setV x (src <<< 1)).setV vF (highBitFlag src))

end Sys2Proof.Machine
end

