-- ==== Sys2Proof/Machine/Control.lean ====
section
/-! DEFINITION. Control transfer: RET, JP, CALL, the four skips, JP.V0 (R90 to R98). pc already holds the address of the
instruction plus 2 (R63). -/

namespace Sys2Proof.Machine

/-- RET (R90). -/
def execRet (s : State) : Result := s.popPc

/-- JP (R91). -/
def execJp (nnn : Addr12) (s : State) : Result := .next (s.setPc (zextAddr nnn))

/-- CALL: push the advanced pc, then jump (R92). -/
def execCall (nnn : Addr12) (s : State) : Result :=
  andThen (s.push s.pc) fun t => .next (t.setPc (zextAddr nnn))

/-- SE.I (R93). -/
def execSeI (x : Reg) (nn : Byte) (s : State) : Result := .next (s.skipIf (s.getV x == nn))

/-- SNE.I (R94). -/
def execSneI (x : Reg) (nn : Byte) (s : State) : Result := .next (s.skipIf (s.getV x != nn))

/-- SE.R (R95). -/
def execSeR (x y : Reg) (s : State) : Result := .next (s.skipIf (s.getV x == s.getV y))

/-- SNE.R (R96). -/
def execSneR (x y : Reg) (s : State) : Result := .next (s.skipIf (s.getV x != s.getV y))

/-- JP.V0 (R97). -/
def execJpV0 (nnn : Addr12) (s : State) : Result := .next (s.setPc (s.offsetTarget nnn))

end Sys2Proof.Machine
end

