-- ==== Sys2Proof/Machine/Sprite.lean ====
section
/-! DEFINITION. Cells of the display buffer and the XOR blit of DRW: start coordinates come in already reduced, the body
clips at the right and bottom edges (R27, R81, R82). -/

namespace Sys2Proof.Machine

/-- display[x, y]: column x from the left edge, row y from the top edge (R27). -/
def Display.cell (d : Display) (x y : Nat) : Bool :=
  ((d[y]?).getD [])[x]?.getD false

/-- display[x, y] <- display[x, y] XOR 1 (R81). -/
def Display.flip (d : Display) (x y : Nat) : Display :=
  d.modify y fun row => row.modify x not

/-- The display while a sprite is being drawn, and whether a lit cell has been turned off so far (R81). -/
structure Blit where
  display : Display
  hit : Bool
  deriving DecidableEq, Repr

/-- A sprite bit that is 1 falls on a cell: a lit cell is a collision, and the cell is inverted (R81). -/
def Blit.plot (p : Blit) (x y : Nat) : Blit :=
  { display := p.display.flip x y, hit := p.hit || p.display.cell x y }

/-- Draw the last `k` bits of a sprite row, most significant first: bit j of the byte goes to column x0 + 7 − j, and the
row stops at the right edge, column `w` (R81, R82). -/
def Blit.bits (w x0 y : Nat) (b : Byte) : Nat → Blit → Blit
  | 0, p => p
  | k + 1, p =>
    if w ≤ x0 + (7 - k) then p
    else Blit.bits w x0 y b k (if b.getLsbD k then p.plot (x0 + (7 - k)) y else p)

/-- Draw `k` rows of a sprite, the first of them row `r`; the whole sprite stops at the bottom edge, row `h` (R81). -/
def Blit.rows (w h x0 y0 : Nat) (row : Nat → Byte) : Nat → Nat → Blit → Blit
  | 0, _, p => p
  | k + 1, r, p =>
    if h ≤ y0 + r then p
    else Blit.rows w h x0 y0 row k (r + 1) (Blit.bits w x0 (y0 + r) (row r) 8 p)

/-- Draw an `n`-row sprite whose row r is the byte `row r`, with its top left cell at (x0, y0) (R81). -/
def drawSprite (d : Display) (w h x0 y0 : Nat) (row : Nat → Byte) (n : Nat) : Blit :=
  Blit.rows w h x0 y0 row n 0 { display := d, hit := false }

/-- The view of the display on its port: row-major, index y·W + x (R27, decision D12). -/
def Display.rowMajor (d : Display) : List Bool := d.flatten

end Sys2Proof.Machine
end

