-- ==== Sys2Proof/Machine/DisplayInstrs.lean ====
section
/-! DEFINITION. The display instructions CLS and DRW (R80, R81). pc already holds the address of the instruction plus 2
(R63). -/

namespace Sys2Proof.Machine

/-- CLS (R80). -/
def execCls (s : State) : Result :=
  .next ((s.setDisplay (blankDisplay s.cfg.displayW s.cfg.displayH)).setRedraw true)

/-- DRW (R81): the coordinates are sampled before VF is written, and the whole range I .. I+N−1 is checked first. -/
def execDrw (x y : Reg) (n : Fin 16) (s : State) : Result :=
  let x0 := startCoordinate (s.getV x) s.cfg.displayW
  let y0 := startCoordinate (s.getV y) s.cfg.displayH
  let drawn := drawSprite s.display s.cfg.displayW s.cfg.displayH x0 y0 (fun r => s.readByte (s.dataBase + r)) n.val
  checkRange s.dataBase n.val
    (.next (((s.setV vF (collisionFlag drawn.hit)).setDisplay drawn.display).setRedraw true))

end Sys2Proof.Machine
end

