-- ==== Sys2Proof/Machine/IndexMemory.lean ====
section
/-! DEFINITION. Index register and memory instructions (R120 to R126). Each checks its whole address range before its
first write (R45). -/

namespace Sys2Proof.Machine

/-- LD.A (R120). -/
def execLdA (nnn : Addr12) (s : State) : Result := .next (s.setIndex (zextAddr nnn))

/-- ADD.A: a 16-bit add, no flag (R121). -/
def execAddA (x : Reg) (s : State) : Result := .next (s.setIndex (s.i + zextByte (s.getV x)))

/-- LD.F: reads no memory (R122). -/
def execLdF (x : Reg) (s : State) : Result := .next (s.setIndex (glyphAddress (s.getV x)))

/-- BCD: hundreds, tens, ones at I, I+1, I+2 (R123). -/
def execBcd (x : Reg) (s : State) : Result :=
  let d := s.getV x
  let a := s.dataBase
  checkRange a 3
    (.next (((s.writeByte a (hundreds d)).writeByte (a + 1) (tens d)).writeByte (a + 2) (ones d)))

/-- STM: V[0] .. V[X] to memory from the value of I on entry (R124). -/
def execStm (x : Reg) (s : State) : Result :=
  checkRange s.dataBase (x.val + 1)
    (.next ((storeRegs s.dataBase (regsUpTo x) s).setIndex (s.indexAfterMove x)))

/-- LDM: V[0] .. V[X] from memory from the value of I on entry (R125). -/
def execLdm (x : Reg) (s : State) : Result :=
  checkRange s.dataBase (x.val + 1)
    (.next ((loadRegs s.dataBase (regsUpTo x) s).setIndex (s.indexAfterMove x)))

end Sys2Proof.Machine
end

