-- ==== Sys2Proof/Machine/Inputs.lean ====
section
/-! DEFINITION. Random, keypad and timer instructions (R130 to R136). -/

namespace Sys2Proof.Machine

/-- RND with the byte on port `rand` given: V[X] <- draw & NN (R130). -/
def rndWith (draw : Byte) (x : Reg) (nn : Byte) (s : State) : State :=
  (s.setV x (draw &&& nn)).countDraw

/-- RND: the draw is the free value of this execution (R130, log entry 3). -/
def execRnd (x : Reg) (nn : Byte) (s : State) : Result :=
  .next (rndWith (Config.randByte s.randDraws) x nn s)

/-- SKP: the key index is the value V[X]; the level is sampled once (R131). -/
def execSkp (x : Reg) (s : State) : Result :=
  withKey (s.getV x) fun k => .next (s.skipIf (s.keyDown k))

/-- SKNP (R132). -/
def execSknp (x : Reg) (s : State) : Result :=
  withKey (s.getV x) fun k => .next (s.skipIf (!s.keyDown k))

/-- LD.DT (R133). -/
def execLdDt (x : Reg) (s : State) : Result := .next (s.setV x s.dt)

/-- One execution of LD.K: detect a press, then wait for that key's release, then commit. Every execution but the
committing one stalls by taking pc back (R134). -/
def execLdK (x : Reg) (s : State) : Result :=
  match s.pendingKey with
  | none =>
    match s.lowestKeyDown with
    | some k => .next (s.setPendingKey (some k)).stallPc
    | none => .next s.stallPc
  | some k =>
    if s.keyDown k then .next s.stallPc
    else .next ((s.setV x (BitVec.ofNat 8 k.val)).setPendingKey none)

/-- ST.DT (R135). -/
def execStDt (x : Reg) (s : State) : Result := .next (s.setDelay (s.getV x))

/-- ST.ST (R136). -/
def execStSt (x : Reg) (s : State) : Result := .next (s.setSound (s.getV x))

end Sys2Proof.Machine
end

