-- ==== Sys2Proof/Machine/Unrecognized.lean ====
section
/-! DEFINITION. NOP.U, the execution of an unrecognized opcode (R140). -/

namespace Sys2Proof.Machine

/-- NOP.U: no effect beyond the fetch's advance of pc (R140, R158). -/
def execNopU (s : State) : Result := .next s

end Sys2Proof.Machine
end

