-- ==== Sys2Proof/Syntax.lean ====
section
/-! DEFINITION. The instructions: one constructor per row of the opcode map (R65), with the fields its pattern names
(R61, R62). -/

namespace Sys2Proof

/-- One instruction, as the decoder hands it to the executor (R65). -/
inductive Instr where
  /-- CLS, 00E0 (R80). -/
  | cls
  /-- RET, 00EE (R90). -/
  | ret
  /-- JP, 1NNN (R91). -/
  | jp (nnn : Addr12)
  /-- CALL, 2NNN (R92). -/
  | call (nnn : Addr12)
  /-- SE.I, 3XNN (R93). -/
  | seI (x : Reg) (nn : Byte)
  /-- SNE.I, 4XNN (R94). -/
  | sneI (x : Reg) (nn : Byte)
  /-- SE.R, 5XY0 (R95). -/
  | seR (x y : Reg)
  /-- LD.I, 6XNN (R100). -/
  | ldI (x : Reg) (nn : Byte)
  /-- ADD.I, 7XNN (R101). -/
  | addI (x : Reg) (nn : Byte)
  /-- LD.R, 8XY0 (R102). -/
  | ldR (x y : Reg)
  /-- OR, 8XY1 (R103). -/
  | or (x y : Reg)
  /-- AND, 8XY2 (R104). -/
  | and (x y : Reg)
  /-- XOR, 8XY3 (R105). -/
  | xor (x y : Reg)
  /-- ADD.R, 8XY4 (R106). -/
  | addR (x y : Reg)
  /-- SUB, 8XY5 (R107). -/
  | sub (x y : Reg)
  /-- SHR, 8XY6 (R108). -/
  | shr (x y : Reg)
  /-- SUBN, 8XY7 (R109). -/
  | subn (x y : Reg)
  /-- SHL, 8XYE (R110). -/
  | shl (x y : Reg)
  /-- SNE.R, 9XY0 (R96). -/
  | sneR (x y : Reg)
  /-- LD.A, ANNN (R120). -/
  | ldA (nnn : Addr12)
  /-- JP.V0, BNNN (R97). -/
  | jpV0 (nnn : Addr12)
  /-- RND, CXNN (R130). -/
  | rnd (x : Reg) (nn : Byte)
  /-- DRW, DXYN: N is a row count 0 to 15 (R81, R71). -/
  | drw (x y : Reg) (n : Fin 16)
  /-- SKP, EX9E (R131). -/
  | skp (x : Reg)
  /-- SKNP, EXA1 (R132). -/
  | sknp (x : Reg)
  /-- LD.DT, FX07 (R133). -/
  | ldDt (x : Reg)
  /-- LD.K, FX0A (R134). -/
  | ldK (x : Reg)
  /-- ST.DT, FX15 (R135). -/
  | stDt (x : Reg)
  /-- ST.ST, FX18 (R136). -/
  | stSt (x : Reg)
  /-- ADD.A, FX1E (R121). -/
  | addA (x : Reg)
  /-- LD.F, FX29 (R122). -/
  | ldF (x : Reg)
  /-- BCD, FX33 (R123). -/
  | bcd (x : Reg)
  /-- STM, FX55 (R124). -/
  | stm (x : Reg)
  /-- LDM, FX65 (R125). -/
  | ldm (x : Reg)
  /-- NOP.U, any opcode that matches no other row (R140); `DW hhhh` in assembly, so it carries its word. -/
  | nopU (w : Word)
  deriving DecidableEq, Repr

end Sys2Proof
end

