-- ==== Sys2Proof/Machine/OpcodeTable.lean ====
section
/-! DEFINITION. The opcode map as data: the mask and match of each of the 34 recognized patterns, row by row as R65
lists them. `WellFormed` and the statements about decoding use it; the decoder is written from the fields instead, so
the two can be held against each other. -/

namespace Sys2Proof

/-- One row of the opcode map (R65). -/
structure OpcodeRow where
  mnemonic : String
  mask : Word
  value : Word
  deriving DecidableEq, Repr

/-- "(opcode & mask) = match" (R64). -/
def OpcodeRow.admits (r : OpcodeRow) (w : Word) : Bool :=
  w &&& r.mask == r.value

/-- The rows of classes 0 to 7 (R65). -/
def lowOpcodeRows : List OpcodeRow :=
  [⟨"CLS", 0xFFFF#16, 0x00E0#16⟩, ⟨"RET", 0xFFFF#16, 0x00EE#16⟩, ⟨"JP", 0xF000#16, 0x1000#16⟩,
   ⟨"CALL", 0xF000#16, 0x2000#16⟩, ⟨"SE.I", 0xF000#16, 0x3000#16⟩, ⟨"SNE.I", 0xF000#16, 0x4000#16⟩,
   ⟨"SE.R", 0xF00F#16, 0x5000#16⟩, ⟨"LD.I", 0xF000#16, 0x6000#16⟩, ⟨"ADD.I", 0xF000#16, 0x7000#16⟩]

/-- The rows of class 8 (R65). -/
def aluOpcodeRows : List OpcodeRow :=
  [⟨"LD.R", 0xF00F#16, 0x8000#16⟩, ⟨"OR", 0xF00F#16, 0x8001#16⟩, ⟨"AND", 0xF00F#16, 0x8002#16⟩,
   ⟨"XOR", 0xF00F#16, 0x8003#16⟩, ⟨"ADD.R", 0xF00F#16, 0x8004#16⟩, ⟨"SUB", 0xF00F#16, 0x8005#16⟩,
   ⟨"SHR", 0xF00F#16, 0x8006#16⟩, ⟨"SUBN", 0xF00F#16, 0x8007#16⟩, ⟨"SHL", 0xF00F#16, 0x800E#16⟩]

/-- The rows of classes 9 to F (R65). -/
def highOpcodeRows : List OpcodeRow :=
  [⟨"SNE.R", 0xF00F#16, 0x9000#16⟩, ⟨"LD.A", 0xF000#16, 0xA000#16⟩, ⟨"JP.V0", 0xF000#16, 0xB000#16⟩,
   ⟨"RND", 0xF000#16, 0xC000#16⟩, ⟨"DRW", 0xF000#16, 0xD000#16⟩, ⟨"SKP", 0xF0FF#16, 0xE09E#16⟩,
   ⟨"SKNP", 0xF0FF#16, 0xE0A1#16⟩, ⟨"LD.DT", 0xF0FF#16, 0xF007#16⟩, ⟨"LD.K", 0xF0FF#16, 0xF00A#16⟩,
   ⟨"ST.DT", 0xF0FF#16, 0xF015#16⟩, ⟨"ST.ST", 0xF0FF#16, 0xF018#16⟩, ⟨"ADD.A", 0xF0FF#16, 0xF01E#16⟩,
   ⟨"LD.F", 0xF0FF#16, 0xF029#16⟩, ⟨"BCD", 0xF0FF#16, 0xF033#16⟩, ⟨"STM", 0xF0FF#16, 0xF055#16⟩,
   ⟨"LDM", 0xF0FF#16, 0xF065#16⟩]

/-- The 34 recognized patterns (R65). -/
def opcodeRows : List OpcodeRow :=
  lowOpcodeRows ++ aluOpcodeRows ++ highOpcodeRows

/-- The opcode matches some row; an opcode that does not is one of the 21582 unrecognized values (R64, R66). -/
def recognized (w : Word) : Bool :=
  opcodeRows.any fun r => r.admits w

end Sys2Proof
end

