-- ==== Sys2Proof/WellFormed.lean ====
section
/-! DEFINITION. Which instructions the encoding admits. The operand types already keep every field in its width (R61,
R71), so the one check left is that NOP.U stands only for a word that matches no row (R66, R140). -/

namespace Sys2Proof

/-- The instruction is one the decoder can produce. -/
def Instr.wf : Instr → Bool
  | .nopU w => !recognized w
  | .cls | .ret | .jp _ | .call _ | .seI _ _ | .sneI _ _ | .seR _ _ | .ldI _ _ | .addI _ _ => true
  | .ldR _ _ | .or _ _ | .and _ _ | .xor _ _ | .addR _ _ | .sub _ _ | .shr _ _ | .subn _ _ | .shl _ _ => true
  | .sneR _ _ | .ldA _ | .jpV0 _ | .rnd _ _ | .drw _ _ _ | .skp _ | .sknp _ | .ldDt _ | .ldK _ => true
  | .stDt _ | .stSt _ | .addA _ | .ldF _ | .bcd _ | .stm _ | .ldm _ => true

end Sys2Proof
end

