-- ==== Sys2Proof/Decode.lean ====
section
/-! DEFINITION. Decoding and encoding. The decoder splits a 16-bit big-endian opcode into its fields (R61) and picks the
row of the opcode map (R64, R65); a word that matches no row decodes to NOP.U (R66), so no word is refused. The encoder
is written from the formats of R62. -/

namespace Sys2Proof

/-- The decoded Instruction record of R61, with the class nibble. It is transient: State keeps no copy (R33). -/
structure Fields where
  /-- opcode[15:12] -/
  cls : Fin 16
  /-- opcode[11:8] -/
  x : Reg
  /-- opcode[7:4] -/
  y : Reg
  /-- opcode[3:0] -/
  n : Fin 16
  /-- opcode[7:0] -/
  nn : Byte
  /-- opcode[11:0] -/
  nnn : Addr12
  deriving DecidableEq, Repr

/-- The nibble of an opcode whose lowest bit is bit `lo`. -/
def nibbleAt (w : Word) (lo : Nat) : Fin 16 :=
  (w.extractLsb' lo 4).toFin

/-- All fields are extracted from every opcode, with no side effect and no failure (R61). -/
def fieldsOf (w : Word) : Fields :=
  { cls := nibbleAt w 12
    x := nibbleAt w 8
    y := nibbleAt w 4
    n := nibbleAt w 0
    nn := w.extractLsb' 0 8
    nnn := w.extractLsb' 0 12 }

/-- Class 8: the low nibble is the function code; 8 to D and F match no row (R65, R66). -/
def decodeClass8 (f : Fields) (w : Word) : Instr :=
  match f.n.val with
  | 0x0 => .ldR f.x f.y
  | 0x1 => .or f.x f.y
  | 0x2 => .and f.x f.y
  | 0x3 => .xor f.x f.y
  | 0x4 => .addR f.x f.y
  | 0x5 => .sub f.x f.y
  | 0x6 => .shr f.x f.y
  | 0x7 => .subn f.x f.y
  | 0xE => .shl f.x f.y
  | _ => .nopU w

/-- Class E: the low byte is the function code (R65, R66). -/
def decodeClassE (f : Fields) (w : Word) : Instr :=
  match f.nn.toNat with
  | 0x9E => .skp f.x
  | 0xA1 => .sknp f.x
  | _ => .nopU w

/-- Class F: the low byte is the function code (R65, R66). -/
def decodeClassF (f : Fields) (w : Word) : Instr :=
  match f.nn.toNat with
  | 0x07 => .ldDt f.x
  | 0x0A => .ldK f.x
  | 0x15 => .stDt f.x
  | 0x18 => .stSt f.x
  | 0x1E => .addA f.x
  | 0x29 => .ldF f.x
  | 0x33 => .bcd f.x
  | 0x55 => .stm f.x
  | 0x65 => .ldm f.x
  | _ => .nopU w

/-- Class 0: all twelve low bits are literal, so only 00E0 and 00EE match (R64, R66). -/
def decodeClass0 (f : Fields) (w : Word) : Instr :=
  match f.nnn.toNat with
  | 0x0E0 => .cls
  | 0x0EE => .ret
  | _ => .nopU w

/-- Classes 5 and 9: the low nibble must be 0 (R64, R66). -/
def ifLowNibbleZero (f : Fields) (w : Word) (i : Instr) : Instr :=
  if f.n.val = 0 then i else .nopU w

/-- The row of R65 that the opcode matches, or NOP.U (R64, R66). EXT_MODE takes no part (R68). -/
def decodeWord (w : Word) : Instr :=
  let f := fieldsOf w
  match f.cls.val with
  | 0x0 => decodeClass0 f w
  | 0x1 => .jp f.nnn
  | 0x2 => .call f.nnn
  | 0x3 => .seI f.x f.nn
  | 0x4 => .sneI f.x f.nn
  | 0x5 => ifLowNibbleZero f w (.seR f.x f.y)
  | 0x6 => .ldI f.x f.nn
  | 0x7 => .addI f.x f.nn
  | 0x8 => decodeClass8 f w
  | 0x9 => ifLowNibbleZero f w (.sneR f.x f.y)
  | 0xA => .ldA f.nnn
  | 0xB => .jpV0 f.nnn
  | 0xC => .rnd f.x f.nn
  | 0xD => .drw f.x f.y f.n
  | 0xE => decodeClassE f w
  | _ => decodeClassF f w

/-- opcode = {hi, lo}: the byte at the lower address is bits 15 to 8 (R43). -/
def bigEndian (hi lo : Byte) : Word :=
  hi ++ lo

/-- The two bytes of an opcode, the first at the lower address (R43, R61). -/
def opcodeBytes (w : Word) : List Byte :=
  [w.extractLsb' 8 8, w.extractLsb' 0 8]

/-- Why a byte string is no instruction: it is shorter than the one instruction length, 16 bits (R60). -/
inductive DecodeReject where
  | fewerThanTwoBytes
  deriving DecidableEq, Repr

/-- The first instruction of a byte string, and the bytes after it (R60, R43). -/
def decode : List Byte → Except DecodeReject (Instr × List Byte)
  | hi :: lo :: rest => .ok (decodeWord (bigEndian hi lo), rest)
  | [_] => .error .fewerThanTwoBytes
  | [] => .error .fewerThanTwoBytes

/-- Four bits of an opcode. -/
def nibbleBits (n : Fin 16) : BitVec 4 := BitVec.ofFin n

/-- The opcode whose nibbles are these, from bit 15 down. -/
def ofNibbles (c x y n : Fin 16) : Word :=
  nibbleBits c ++ nibbleBits x ++ nibbleBits y ++ nibbleBits n

/-- Format NNN (R62). -/
def encodeNNN (c : Fin 16) (nnn : Addr12) : Word :=
  nibbleBits c ++ nnn

/-- Formats XNN and X: the low byte is data in the first and a literal in the second (R62). -/
def encodeXNN (c : Fin 16) (x : Reg) (nn : Byte) : Word :=
  nibbleBits c ++ nibbleBits x ++ nn

/-- The opcode of an instruction (R62, R65). -/
def encode : Instr → Word
  | .cls => ofNibbles 0x0 0x0 0xE 0x0
  | .ret => ofNibbles 0x0 0x0 0xE 0xE
  | .jp nnn => encodeNNN 0x1 nnn
  | .call nnn => encodeNNN 0x2 nnn
  | .seI x nn => encodeXNN 0x3 x nn
  | .sneI x nn => encodeXNN 0x4 x nn
  | .seR x y => ofNibbles 0x5 x y 0x0
  | .ldI x nn => encodeXNN 0x6 x nn
  | .addI x nn => encodeXNN 0x7 x nn
  | .ldR x y => ofNibbles 0x8 x y 0x0
  | .or x y => ofNibbles 0x8 x y 0x1
  | .and x y => ofNibbles 0x8 x y 0x2
  | .xor x y => ofNibbles 0x8 x y 0x3
  | .addR x y => ofNibbles 0x8 x y 0x4
  | .sub x y => ofNibbles 0x8 x y 0x5
  | .shr x y => ofNibbles 0x8 x y 0x6
  | .subn x y => ofNibbles 0x8 x y 0x7
  | .shl x y => ofNibbles 0x8 x y 0xE
  | .sneR x y => ofNibbles 0x9 x y 0x0
  | .ldA nnn => encodeNNN 0xA nnn
  | .jpV0 nnn => encodeNNN 0xB nnn
  | .rnd x nn => encodeXNN 0xC x nn
  | .drw x y n => ofNibbles 0xD x y n
  | .skp x => encodeXNN 0xE x 0x9E#8
  | .sknp x => encodeXNN 0xE x 0xA1#8
  | .ldDt x => encodeXNN 0xF x 0x07#8
  | .ldK x => encodeXNN 0xF x 0x0A#8
  | .stDt x => encodeXNN 0xF x 0x15#8
  | .stSt x => encodeXNN 0xF x 0x18#8
  | .addA x => encodeXNN 0xF x 0x1E#8
  | .ldF x => encodeXNN 0xF x 0x29#8
  | .bcd x => encodeXNN 0xF x 0x33#8
  | .stm x => encodeXNN 0xF x 0x55#8
  | .ldm x => encodeXNN 0xF x 0x65#8
  | .nopU w => w

/-- The mnemonic of an instruction's row (R65). -/
def mnemonicOf : Instr → String
  | .cls => "CLS"
  | .ret => "RET"
  | .jp _ => "JP"
  | .call _ => "CALL"
  | .seI _ _ => "SE.I"
  | .sneI _ _ => "SNE.I"
  | .seR _ _ => "SE.R"
  | .ldI _ _ => "LD.I"
  | .addI _ _ => "ADD.I"
  | .ldR _ _ => "LD.R"
  | .or _ _ => "OR"
  | .and _ _ => "AND"
  | .xor _ _ => "XOR"
  | .addR _ _ => "ADD.R"
  | .sub _ _ => "SUB"
  | .shr _ _ => "SHR"
  | .subn _ _ => "SUBN"
  | .shl _ _ => "SHL"
  | .sneR _ _ => "SNE.R"
  | .ldA _ => "LD.A"
  | .jpV0 _ => "JP.V0"
  | .rnd _ _ => "RND"
  | .drw _ _ _ => "DRW"
  | .skp _ => "SKP"
  | .sknp _ => "SKNP"
  | .ldDt _ => "LD.DT"
  | .ldK _ => "LD.K"
  | .stDt _ => "ST.DT"
  | .stSt _ => "ST.ST"
  | .addA _ => "ADD.A"
  | .ldF _ => "LD.F"
  | .bcd _ => "BCD"
  | .stm _ => "STM"
  | .ldm _ => "LDM"
  | .nopU _ => "NOP.U"

/-- The one word of an instruction given as a number of `nbits` bits: the bits above `nbits` are 0. -/
def tableWord (nbits w : Nat) : Word :=
  BitVec.ofNat 16 (w % 2 ^ nbits)

/-- What the decoder reads from the instruction whose bits are `w`, its one word laid out in memory's byte order. A
number that does not fit the 16 bits of an instruction (R60) is none. -/
def decodeTableWord (nbits w : Nat) : Option Instr :=
  if nbits ≤ 16 ∧ w < 2 ^ nbits then
    match decode (opcodeBytes (tableWord nbits w)) with
    | .ok (i, _) => some i
    | .error _ => none
  else none

end Sys2Proof
end

