-- ==== Sys2Proof/Machine/Fetch.lean ====
section
/-! DEFINITION. The instruction fetch (R46, R43, R44) and the placing of an opcode where the next fetch reads it. -/

namespace Sys2Proof.Machine

/-- pc from 0 to 4093 fetches, odd or even (R46, R44). -/
def State.fetchable (s : State) : Bool := decide (s.pc.toNat ≤ memSize - 3)

/-- {memory[pc], memory[pc+1]}, read as memory stands at that moment (R43, R46, R51). -/
def State.opcodeAtPc (s : State) : Word :=
  bigEndian (s.readByte s.pc.toNat) (s.readByte (s.pc.toNat + 1))

/-- The fetch: `PcOutOfRange` when pc >= 4094, before anything is read and before pc advances; otherwise the opcode, with
pc advanced by 2 before the execute phase (R46, R63, R154). -/
def withFetched (s : State) (k : Word → State → Result) : Result :=
  if s.fetchable then k s.opcodeAtPc s.advancePc else raise (.pcOutOfRange s.pc.toNat)

/-- Store an opcode at an address, high byte first (R43). -/
def State.placeOpcode (s : State) (a : Nat) (w : Word) : State :=
  (s.writeByte a (w.extractLsb' 8 8)).writeByte (a + 1) (w.extractLsb' 0 8)

/-- The state as `s`, but Running, with pc fetchable (ENTRY if it was not) and no host input before the next step: what
the next step's fetch needs (R46, R63, R168). -/
def State.readyToFetch (s : State) : State :=
  let running := s.setExecState .running
  let atPc := if running.fetchable then running else running.setPc (BitVec.ofNat 16 entry)
  match atPc.hostInputs with
  | [] => atPc
  | _ :: later => atPc.setHostInputs ([] :: later)

/-- The state in which the next step fetches exactly the opcode `w`. -/
def State.withNextOpcode (s : State) (w : Word) : State :=
  s.readyToFetch.placeOpcode s.readyToFetch.pc.toNat w

end Sys2Proof.Machine
end

