-- ==== Sys2Proof/Machine/Scheduler.lean ====
section
/-! DEFINITION. The steps that are not instructions: the tick, the flush, the host's keys and events, and the order the
scheduler puts them in (R166 to R171). -/

namespace Sys2Proof.Machine

/-- IPT = ceil(CLOCK_RATE / 60) (R12). -/
def instrsPerTick (c : Config) : Nat := (c.clockRate + 59) / 60

/-- A timer's decrement, "floored at 0 (no underflow)" (R166). -/
def countDown (b : Byte) : Byte := BitVec.ofNat 8 (b.toNat - 1)

/-- The `tick` step: both timers, independently, and nothing else (R166). -/
def tick (s : State) : State :=
  (s.setDelay (countDown s.dt)).setSound (countDown s.st)

/-- The `flush` step: the display is read through its port and redraw_needed <- 0; no cell changes (R169). -/
def flush (s : State) : State := s.setRedraw false

/-- The tag after a host event: `Quit` is terminal, `pause_toggle` swaps the other two (R168). -/
def ExecState.after : HostEvent → ExecState → ExecState
  | .quit, _ => .quit
  | .pauseToggle, .running => .paused
  | .pauseToggle, .paused => .running
  | .pauseToggle, .quit => .quit

/-- Act on host events in the order they were raised (R168). -/
def actOn : List HostEvent → State → State
  | [], s => s
  | e :: es, s => actOn es (s.setExecState (ExecState.after e s.execState))

/-- The end of an iteration: tick, then flush if redraw_needed, then batch_count <- 0, and then, at the boundary, the
host events that arrived in its middle (R167, R168). -/
def endIteration (s : State) : State :=
  let ticked := tick s
  let flushed := if ticked.redrawNeeded then flush ticked else ticked
  actOn s.pendingEvents ((flushed.setBatchCount 0).setPendingEvents [])

/-- The end of an instruction step: batch_count <- batch_count + 1, and the end of the iteration when it reaches IPT
(R63, R167). -/
def endInstr (s : State) : State :=
  if s.batchCount + 1 < instrsPerTick s.cfg then s.setBatchCount (s.batchCount + 1) else endIteration s

/-- The sixteen levels of a `keys(k)` step: bit i of k is key i (R171). -/
def keyLevels (k : Word) : Vector Bool 16 := Vector.ofFn fun i => k.getLsbD i.val

/-- One host input. An event acts at once at an iteration boundary, that is when batch_count = 0; in the middle of an
iteration it waits for the boundary (R168, R171). -/
def arrive (s : State) : HostInput → State
  | .keys k => s.setKeys (keyLevels k)
  | .event e =>
    if s.batchCount = 0 then actOn [e] s else s.setPendingEvents (s.pendingEvents ++ [e])

/-- The host's inputs of one gap between steps, in order (R171). -/
def arriveAll : List HostInput → State → State
  | [], s => s
  | x :: xs, s => arriveAll xs (arrive s x)

/-- The inputs the host gives before the coming step, taken from its schedule (R171, log entry 4). -/
def takeHostInputs (s : State) : State :=
  match s.hostInputs with
  | [] => s
  | now :: later => arriveAll now (s.setHostInputs later)

end Sys2Proof.Machine
end

