-- ==== Sys2Proof/Machine/Cycle.lean ====
section
/-! DEFINITION. The instruction cycle (R63) and one step of the machine (R17, R167, R168). -/

namespace Sys2Proof.Machine

/-- One `instr` step with the end-of-iteration work that follows it: fetch, decode, execute, count (R63, R167). -/
def instrStep (s : State) : Result :=
  withFetched s fun w t => andThen (exec (decodeWord w) t) fun u => .next (endInstr u)

/-- What the scheduler does once the host's inputs are in: an instruction step in Running, nothing in Paused or Quit,
where all state is kept (R168). -/
def scheduled (s : State) : Result :=
  match s.execState with
  | .running => instrStep s
  | .paused => .next s
  | .quit => .next s

/-- One step: first what the host does before it, then the scheduler's part. `Quit` is terminal: nothing changes any more
(R168, R171). -/
def machineStep (s : State) : Result :=
  match s.execState with
  | .quit => .next s
  | .running => scheduled (takeHostInputs s)
  | .paused => scheduled (takeHostInputs s)

end Sys2Proof.Machine
end

