-- ==== Sys2Proof/Machine/Step.lean ====
section
/-! DEFINITION. The machine's step, and a word placed where the next step fetches it. -/

namespace Sys2Proof.Machine

/-- One step of the machine (R17, R63, R167, R168). -/
def step (s : State) : Host.Outcome State Fault Refusal := machineStep s

/-- The state in which the next step runs exactly the instruction whose bits are `w`. -/
def State.withFetchWord (s : State) (nbits w : Nat) : State :=
  s.withNextOpcode (tableWord nbits w)

end Sys2Proof.Machine
end

