-- ==== Sys2Proof/Machine/HostPort.lean ====
section
/-! DEFINITION. The machine's boundary: the `reset(rom, config)` step with its ROM load (R47, R156, R157, R180), and the
output ports (R16, R159, R169, R170). -/

namespace Sys2Proof.Machine

/-- MAX_ROM_LEN = MEM_SIZE − ENTRY = 3584 (R14). -/
def maxRomLen : Nat := memSize - entry

/-- Copy bytes to ascending addresses from `a` (R47). -/
def copyBytes : Nat → List Byte → State → State
  | _, [], s => s
  | a, b :: bs, s => copyBytes (a + 1) bs (s.writeByte a b)

/-- The `reset(rom, config)` step (R180): `RomUnreadable` when the host has no ROM bytes to give, `RomTooLarge` when
there are more than 3584 of them, and otherwise the machine with the ROM copied from 0x200 up (R47, R156, R157). A
configuration outside R11 and R12 is refused by name (log entry 19). DEDUCED, log entry 28: of a one-byte ROM, R181's main
clause and this copy give the first opcode (rom[0], 00), where R181's parenthesis says 0000. -/
def load (c : Config) (rom : Option (List Byte)) : Result :=
  match rom with
  | none => raise .romUnreadable
  | some bytes =>
    if !c.legal then .refused .illegalConfiguration
    else if maxRomLen < bytes.length then raise .romTooLarge
    else .next (copyBytes entry bytes (State.initial c))

/-- `sound_on` = 1 iff ST > 0 (R26, R170). -/
def State.soundOn (s : State) : Bool := decide (0 < s.st.toNat)

/-- The eight condition names of R150; they are the codes, there are no numbers (R159, decision D18). -/
inductive Condition where
  | romTooLarge
  | romUnreadable
  | stackOverflow
  | stackUnderflow
  | unimplementedOpcode
  | memoryOutOfRange
  | pcOutOfRange
  | keyIndexOutOfRange
  deriving DecidableEq, Repr

/-- Whether a condition ends the run: all but `UnimplementedOpcode` (R150, R158). -/
def Condition.fatal : Condition → Bool
  | .unimplementedOpcode => false
  | .romTooLarge | .romUnreadable | .stackOverflow | .stackUnderflow => true
  | .memoryOutOfRange | .pcOutOfRange | .keyIndexOutOfRange => true

/-- The name of a fatal condition (R150). -/
def Fault.condition : Fault → Condition
  | .stackOverflow => .stackOverflow
  | .stackUnderflow => .stackUnderflow
  | .memoryOutOfRange _ => .memoryOutOfRange
  | .pcOutOfRange _ => .pcOutOfRange
  | .keyIndexOutOfRange _ => .keyIndexOutOfRange
  | .romTooLarge => .romTooLarge
  | .romUnreadable => .romUnreadable

/-- The condition an instruction's execution is called in the taxonomy although it is not fatal (R158). -/
def silentCondition : Instr → Option Condition
  | .nopU _ => some .unimplementedOpcode
  | _ => none

/-- The `fault` port after a step: "one of the fatal condition names or none" (R16, R163). -/
def faultPort : Result → Option Condition
  | .fault f => some f.condition
  | .next _ => none
  | .refused _ => none

/-- What the machine shows on its output ports between two steps (R16): the display, row-major (R27, decision D12),
redraw_needed and sound_on. -/
structure Ports where
  display : List Bool
  redrawNeeded : Bool
  soundOn : Bool
  deriving DecidableEq, Repr

/-- The output ports (R16, R169, R170). -/
def State.ports (s : State) : Ports :=
  { display := s.display.rowMajor, redrawNeeded := s.redrawNeeded, soundOn := s.soundOn }

end Sys2Proof.Machine
end

