-- ==== Sys2Proof/Safety.lean ====
section
/-! DEFINITION. The terms statements are written in: what a state component is and what leaving it unchanged means, the
invariants of R37, and what a safe run is (R163, R175). -/

namespace Sys2Proof.Machine

/-- One piece of the machine's state, the finest a statement speaks of: one byte, one register, one cell, one key, one
stack entry (R20 to R32, R40). -/
inductive Component where
  | config
  | byte (a : Nat)
  | reg (r : Reg)
  | index
  | pc
  | stackEntry (j : Fin 16)
  | stackCursor
  | delayTimer
  | soundTimer
  | displayBuffer
  | cell (x y : Nat)
  | redrawFlag
  | key (k : Key)
  | execState
  | keyLatch
  | batchCount
  | pendingEvents
  | hostInputs
  | randDraws
  deriving DecidableEq, Repr

/-- The component holds in `t` what it holds in `s`. -/
def Component.same (s t : State) : Component → Prop
  | .config => t.cfg = s.cfg
  | .byte a => t.readByte a = s.readByte a
  | .reg r => t.getV r = s.getV r
  | .index => t.i = s.i
  | .pc => t.pc = s.pc
  | .stackEntry j => t.stack[j.val] = s.stack[j.val]
  | .stackCursor => t.sp = s.sp
  | .delayTimer => t.dt = s.dt
  | .soundTimer => t.st = s.st
  | .displayBuffer => t.display = s.display
  | .cell x y => t.display.cell x y = s.display.cell x y
  | .redrawFlag => t.redrawNeeded = s.redrawNeeded
  | .key k => t.keyDown k = s.keyDown k
  | .execState => t.execState = s.execState
  | .keyLatch => t.pendingKey = s.pendingKey
  | .batchCount => t.batchCount = s.batchCount
  | .pendingEvents => t.pendingEvents = s.pendingEvents
  | .hostInputs => t.hostInputs = s.hostInputs
  | .randDraws => t.randDraws = s.randDraws

/-- The frame: every component that is not among the written ones is unchanged. -/
def Frame (s t : State) (written : Component → Prop) : Prop :=
  ∀ c, ¬ written c → Component.same s t c

/-- The instruction completes in `s`, and its next state is as `P` says. -/
def Completes (i : Instr) (s : State) (P : State → Prop) : Prop :=
  ∃ t, exec i s = .next t ∧ P t

/-- Every opcode that the mask and match admit decodes to the instruction `f` makes of the opcode's fields (R61, R64). -/
def EncodedAs (mask value : Word) (f : Fields → Instr) : Prop :=
  ∀ w : Word, w &&& mask = value → decodeWord w = f (fieldsOf w)

/-- Any part of the display: the buffer or one of its cells (R27). -/
def Component.isDisplay : Component → Prop
  | .displayBuffer => True
  | .cell _ _ => True
  | _ => False

/-- What an instruction may write, started in `s`, from the writers each element's rule lists (R21 to R31, R123 to R125).
The one display component list of DRW is coarse: its statement says which cells. -/
def mayWrite (s : State) : Instr → Component → Prop
  | .cls, c => c.isDisplay ∨ c = .redrawFlag
  | .ret, c => c = .pc ∨ c = .stackCursor
  | .jp _, c => c = .pc
  | .call _, c => c = .pc ∨ c = .stackCursor ∨ ∃ j : Fin 16, j.val = s.sp.val ∧ c = .stackEntry j
  | .seI _ _, c => c = .pc
  | .sneI _ _, c => c = .pc
  | .seR _ _, c => c = .pc
  | .sneR _ _, c => c = .pc
  | .jpV0 _, c => c = .pc
  | .ldI x _, c => c = .reg x
  | .addI x _, c => c = .reg x
  | .ldR x _, c => c = .reg x
  | .or x _, c => c = .reg x ∨ (s.cfg.extMode = .original ∧ c = .reg vF)
  | .and x _, c => c = .reg x ∨ (s.cfg.extMode = .original ∧ c = .reg vF)
  | .xor x _, c => c = .reg x ∨ (s.cfg.extMode = .original ∧ c = .reg vF)
  | .addR x _, c => c = .reg x ∨ c = .reg vF
  | .sub x _, c => c = .reg x ∨ c = .reg vF
  | .shr x _, c => c = .reg x ∨ c = .reg vF
  | .subn x _, c => c = .reg x ∨ c = .reg vF
  | .shl x _, c => c = .reg x ∨ c = .reg vF
  | .ldA _, c => c = .index
  | .addA _, c => c = .index
  | .ldF _, c => c = .index
  | .rnd x _, c => c = .reg x ∨ c = .randDraws
  | .drw _ _ _, c => c = .reg vF ∨ c.isDisplay ∨ c = .redrawFlag
  | .skp _, c => c = .pc
  | .sknp _, c => c = .pc
  | .ldDt x, c => c = .reg x
  | .ldK x, c => c = .pc ∨ c = .keyLatch ∨ ((∃ k, s.pendingKey = some k ∧ s.keyDown k = false) ∧ c = .reg x)
  | .stDt _, c => c = .delayTimer
  | .stSt _, c => c = .soundTimer
  | .bcd _, c => ∃ r, r < 3 ∧ c = .byte (s.dataBase + r)
  | .stm x, c => (∃ r, r ≤ x.val ∧ c = .byte (s.dataBase + r)) ∨ (s.cfg.extMode = .original ∧ c = .index)
  | .ldm x, c => (∃ r : Reg, r.val ≤ x.val ∧ c = .reg r) ∨ (s.cfg.extMode = .original ∧ c = .index)
  | .nopU _, _ => False

/-- The opcodes that write VF as a flag in a given mode: 8XY1 to 8XY3 only when EXT_MODE = 0, 8XY4 to 8XY7, 8XYE, DXYN
(R21). -/
def writesFlag (m : ExtMode) : Instr → Bool
  | .or _ _ | .and _ _ | .xor _ _ => m == .original
  | .addR _ _ | .sub _ _ | .shr _ _ | .subn _ _ | .shl _ _ | .drw _ _ _ => true
  | _ => false

/-- The instruction names VF as the register it writes its result or data to (R21). -/
def namesFlagAsDestination : Instr → Bool
  | .ldI x _ | .addI x _ | .ldR x _ | .or x _ | .and x _ | .xor x _ | .addR x _ | .sub x _ | .shr x _ | .subn x _
  | .shl x _ | .rnd x _ | .ldDt x | .ldK x | .ldm x => x == vF
  | _ => false

/-- The seven opcodes EXT_MODE alters (R13, R68). -/
def readsExtMode : Instr → Bool
  | .or _ _ | .and _ _ | .xor _ _ | .shr _ _ | .shl _ _ | .stm _ | .ldm _ => true
  | _ => false

/-- The bit a sprite contributes to display cell (c, r): the sprite's top left cell is (x0, y0), bit 7 − j of row byte k
falls on column x0 + j of row y0 + k, and nothing falls beyond the right or bottom edge (R81, R82). -/
def spriteBit (w h x0 y0 : Nat) (row : Nat → Byte) (n c r : Nat) : Bool :=
  decide (x0 ≤ c ∧ c < x0 + 8 ∧ c < w ∧ y0 ≤ r ∧ r < y0 + n ∧ r < h) && (row (r - y0)).getLsbD (7 - (c - x0))

/-- What 8XY1, 8XY2 and 8XY3 leave, `res` being the bitwise result: mode 0 clears VF last, mode 1 does not touch it
(R103). -/
def LogicLeaves (s : State) (x : Reg) (res : Byte) (t : State) : Prop :=
  (s.cfg.extMode = .original → t.getV vF = 0#8 ∧ (x ≠ vF → t.getV x = res)) ∧
  (s.cfg.extMode = .extended → t.getV x = res ∧ (x ≠ vF → t.getV vF = s.getV vF)) ∧
  Frame s t (fun c => c = .reg x ∨ c = .reg vF)

/-- What 8XY6 and 8XYE leave: the shifted source in V[x] unless x = 15, and the bit shifted out in VF, written last
(R108, R110). -/
def ShiftLeaves (s : State) (x : Reg) (shifted carry : Nat) (t : State) : Prop :=
  (t.getV vF).toNat = carry ∧ (x ≠ vF → (t.getV x).toNat = shifted) ∧
  Frame s t (fun c => c = .reg x ∨ c = .reg vF)

/-- Two states that agree on everything but the dead entries of the call stack, those at index sp or above (R24). -/
def SameButDeadEntries (s t : State) : Prop :=
  t = { s with stack := t.stack } ∧ ∀ j : Fin 16, j.val < s.sp.val → t.stack[j.val] = s.stack[j.val]

/-- Two outcomes that stop alike, or go on to states that agree on everything but dead stack entries (R24). -/
def OutcomesAgree : Result → Result → Prop
  | .next s, .next t => SameButDeadEntries s t
  | .fault f, .fault g => f = g
  | .refused f, .refused g => f = g
  | _, _ => False

/-- The invariants of R37 and of the elements' own rules. -/
structure State.Inv (s : State) : Prop where
  /-- The configuration is legal (R11, R12). -/
  cfg_legal : s.cfg.legal = true
  /-- Memory keeps its canonical form, all of it below 4096 (R40). -/
  mem_canonical : Memory.wf s.cfg.font s.mem = true
  /-- "stack cursor never exceeds capacity" (R37(b)). -/
  stack_bounded : s.sp.val ≤ s.cfg.stackCapacity.toNat
  /-- The display has DISPLAY_H rows (R27). -/
  display_rows : s.display.length = s.cfg.displayH
  /-- Each row has DISPLAY_W cells (R27). -/
  display_columns : ∀ row ∈ s.display, row.length = s.cfg.displayW
  /-- 0 <= batch_count < IPT (R32, R37(e)). -/
  batch_bounded : s.batchCount < instrsPerTick s.cfg
  /-- "batch_count is 0 whenever the machine is Paused", and likewise in Quit (R168). -/
  stopped_at_boundary : s.execState ≠ .running → s.batchCount = 0
  /-- No host event waits at an iteration boundary (R168). -/
  no_event_waits_at_boundary : s.batchCount = 0 → s.pendingEvents = []

/-- "the largest value any rule can produce is 0x10FE" for pc, and a live stack entry holds the advanced pc of a CALL
that was fetched, at most 4095 (R23, R24). -/
structure State.PcInv (s : State) : Prop where
  pc_bounded : s.pc.toNat ≤ 0x10FE
  stack_entries_bounded : ∀ j : Fin 16, j.val < s.sp.val → s.stack[j.val].toNat ≤ 4095

/-- The states of a run: from a state some `load` answers, by steps (R17, R180). -/
inductive Reachable : State → Prop where
  | start {c : Config} {rom : Option (List Byte)} {s : State} (h : load c rom = .next s) (inputs : List (List HostInput)) :
      Reachable (s.setHostInputs inputs)
  | step {s t : State} (hs : Reachable s) (h : step s = .next t) : Reachable t

/-- A run of `n` steps from `s` in which no fatal condition is raised (R163). -/
def SafeFor (n : Nat) (s : State) : Prop :=
  ∃ t, Sys2Proof.core.run n s = .next t

end Sys2Proof.Machine
end

