-- ==== Sys2Proof/Certificates/Slice0/Obligations.lean ====
section
/-! DEFINITION. The statements for the provers. Each is about every state, operand and configuration that meets its
hypotheses; each docstring names the rule it formalises and, where it rests on a choice the spec marks as its own, says
which. -/

open Sys2Proof Sys2Proof.Machine

/-! ## Encoding and decoding -/

/-- Decoding an encoded well-formed instruction gives it back, every operand at every value (R62, R65). The match inside
classes 0, 5, 9 and E is decision D8. -/
def Obligations.DecodeOfEncode : Prop :=
  ∀ i : Instr, i.wf = true → decodeWord (encode i) = i

/-- Every one of the 65536 opcodes decodes to a well-formed instruction, and encoding that gives the opcode back: no bit
is dropped and no two opcodes are one instruction (R62, R65, R66; decision D8). -/
def Obligations.EncodeOfDecode : Prop :=
  ∀ w : Word, (decodeWord w).wf = true ∧ encode (decodeWord w) = w

/-- The fields are the mask arithmetic of R61 over every opcode, they overlap as R61 says, and the first byte in memory is
class and X, the second NN. -/
def Obligations.FieldsAreMaskArithmetic : Prop :=
  ∀ w : Word,
    (fieldsOf w).nnn.toNat = w.toNat &&& 0x0FFF ∧
    (fieldsOf w).nn.toNat = w.toNat &&& 0x00FF ∧
    (fieldsOf w).n.val = w.toNat &&& 0x000F ∧
    (fieldsOf w).x.val = (w.toNat >>> 8) &&& 0xF ∧
    (fieldsOf w).y.val = (w.toNat >>> 4) &&& 0xF ∧
    (fieldsOf w).cls.val = w.toNat >>> 12 ∧
    (fieldsOf w).nn.toNat = 16 * (fieldsOf w).y.val + (fieldsOf w).n.val ∧
    (fieldsOf w).nnn.toNat = 256 * (fieldsOf w).x.val + 16 * (fieldsOf w).y.val + (fieldsOf w).n.val ∧
    (opcodeBytes w).map BitVec.toNat = [16 * (fieldsOf w).cls.val + (fieldsOf w).x.val, (fieldsOf w).nn.toNat]

/-- The masks of R65 and the decoder agree: an opcode is admitted by a row exactly when it decodes to that row's
instruction, it decodes to NOP.U exactly when no row admits it, and no opcode is admitted by two rows (R64, R66; decision
D8). -/
def Obligations.DecoderFollowsOpcodeMap : Prop :=
  (∀ w : Word, ∀ r ∈ opcodeRows, r.admits w = true ↔ mnemonicOf (decodeWord w) = r.mnemonic) ∧
  (∀ w : Word, recognized w = false ↔ decodeWord w = .nopU w) ∧
  opcodeRows.Pairwise (fun a b => ∀ w : Word, ¬ (a.admits w = true ∧ b.admits w = true))

/-- Words written out from the encodings of R65, bit by bit, decode to the instructions they stand for. -/
def Obligations.WrittenWordsDecode : Prop :=
  decodeWord 0b0000000011100000#16 = .cls ∧
  decodeWord 0b0010001100000001#16 = .call 0x301#12 ∧
  decodeWord 0b1000101010110111#16 = .subn 0xA 0xB ∧
  decodeWord 0b1101000100101111#16 = .drw 0x1 0x2 0xF ∧
  decodeWord 0b1110010110100001#16 = .sknp 0x5 ∧
  decodeWord 0b1111001001100101#16 = .ldm 0x2 ∧
  decodeWord 0b0101000100100001#16 = .nopU 0x5121#16

/-- One instruction is two bytes, the first the high one (R43, R60): the decoder takes exactly them and leaves the rest,
and refuses a shorter string by name. -/
def Obligations.DecodeTakesTwoBigEndianBytes : Prop :=
  (∀ (hi lo : Byte) (rest : List Byte), ∃ w : Word, w.toNat = 256 * hi.toNat + lo.toNat ∧
    decode (hi :: lo :: rest) = .ok (decodeWord w, rest)) ∧
  (∀ b : Byte, decode [b] = .error .fewerThanTwoBytes) ∧ decode [] = .error .fewerThanTwoBytes

/-! ## The step -/

/-- In a step of a running machine, after the host's inputs, the two bytes at pc decode to `i`, pc advances by 2, `i`
runs, and the end of the instruction follows (R63, R46, R171). With no host inputs due, the state it starts from is `s`
itself. -/
def Obligations.StepRunsDecodedInstr : Prop :=
  ∀ (s : State) (i : Instr),
    let u := takeHostInputs s
    s.execState ≠ .quit → u.execState = .running → u.pc.toNat ≤ 4093 →
    decodeWord (bigEndian (u.readByte u.pc.toNat) (u.readByte (u.pc.toNat + 1))) = i →
    step s = andThen (exec i { u with pc := u.pc + 2#16 }) (fun t => .next (endInstr t)) ∧
    (s.hostInputs = [] → u = s)

/-- A fetch at pc >= 4094 raises PcOutOfRange before anything else, whatever host inputs were due before the step: they do
not move pc (R46, R154; decision D3). -/
def Obligations.FetchBeyondRangeFaults : Prop :=
  ∀ s : State, s.execState ≠ .quit → (takeHostInputs s).execState = .running → 4094 ≤ s.pc.toNat →
    step s = .fault (.pcOutOfRange s.pc.toNat)

/-- What follows an instruction (R63 step 5, R166, R167, R169; the flush's clear is decision D17, the moment of host
events D15): batch_count counts up to IPT, and then both timers count down, redraw_needed is cleared, batch_count is 0 and
the waiting host events act, in the order they were raised (log entry 5); nothing else changes. IPT is CLOCK_RATE / 60
rounded up (R12; the rounding is decision D16, log entry 24). -/
def Obligations.EndOfInstrCountsAndTicks : Prop :=
  (∀ c : Config, c.legal = true → c.clockRate ≤ 60 * instrsPerTick c ∧ 60 * (instrsPerTick c - 1) < c.clockRate) ∧
  (∀ s : State, s.batchCount + 1 < instrsPerTick s.cfg → endInstr s = { s with batchCount := s.batchCount + 1 }) ∧
  (∀ s : State, instrsPerTick s.cfg ≤ s.batchCount + 1 →
    (endInstr s).dt.toNat = s.dt.toNat - 1 ∧ (endInstr s).st.toNat = s.st.toNat - 1 ∧
    (endInstr s).redrawNeeded = false ∧ (endInstr s).batchCount = 0 ∧ (endInstr s).pendingEvents = [] ∧
    (endInstr s).execState = s.pendingEvents.foldl (fun tag e => ExecState.after e tag) s.execState ∧
    Frame s (endInstr s) (fun c => c = .delayTimer ∨ c = .soundTimer ∨ c = .redrawFlag ∨ c = .batchCount ∨
      c = .pendingEvents ∨ c = .execState))

/-- The tick decrements both timers, each floored at 0, and changes nothing else; after n ticks a timer has lost n and
never less than 0 is left; no instruction but FX15 and FX18 writes a timer (R166, source property S10). -/
def Obligations.TickDecrementsTimersFlooredAtZero : Prop :=
  (∀ s : State,
    (tick s).dt.toNat = (if 0 < s.dt.toNat then s.dt.toNat - 1 else s.dt.toNat) ∧
    (tick s).st.toNat = (if 0 < s.st.toNat then s.st.toNat - 1 else s.st.toNat) ∧
    Frame s (tick s) (fun c => c = .delayTimer ∨ c = .soundTimer)) ∧
  (∀ (n : Nat) (s : State), (tick^[n] s).dt.toNat = s.dt.toNat - n ∧ (tick^[n] s).st.toNat = s.st.toNat - n) ∧
  ∀ (i : Instr) (s t : State), exec i s = .next t →
    ((∀ x, i ≠ .stDt x) → t.dt = s.dt) ∧ ((∀ x, i ≠ .stSt x) → t.st = s.st)

/-- Over k steps with no host events, batch_count has gone round by k: a tick comes after exactly IPT instruction steps,
stalls and no-ops included (R32, R167). -/
def Obligations.BatchCountGoesRoundOverSteps : Prop :=
  ∀ (k : Nat) (s t : State), s.execState = .running → s.hostInputs = [] → s.pendingEvents = [] →
    s.batchCount < instrsPerTick s.cfg → Sys2Proof.core.run k s = .next t →
    t.batchCount = (s.batchCount + k) % instrsPerTick s.cfg ∧ t.execState = .running

/-- Quit is terminal, and a paused machine that the host leaves alone keeps all its state (R168). The model's choice, log
entry 4: such a step answers the same state. -/
def Obligations.PausedAndQuitKeepState : Prop :=
  ∀ s : State, (s.execState = .quit → step s = .next s) ∧
    (s.execState = .paused → s.hostInputs = [] → step s = .next s)

/-- Host events at a boundary act at once, in the middle of an iteration they wait for its end; pause_toggle swaps Running
and Paused, quit ends either, and nothing leaves Quit (R168; for pause_toggle decision D15). The last three clauses say the
same of whole steps: a due quit, a due pause_toggle in Running, and a due pause_toggle that resumes a paused machine before
the rest of the gap's inputs and the step's instruction. The schedule and the waiting list are log entries 4 and 5. -/
def Obligations.HostEventsActAtBoundaries : Prop :=
  (∀ (s : State) (e : HostEvent), s.batchCount ≠ 0 →
    arrive s (.event e) = { s with pendingEvents := s.pendingEvents ++ [e] }) ∧
  (∀ s : State, s.batchCount = 0 → arrive s (.event .quit) = { s with execState := .quit }) ∧
  (∀ s : State, s.batchCount = 0 → s.execState = .running →
    arrive s (.event .pauseToggle) = { s with execState := .paused }) ∧
  (∀ s : State, s.batchCount = 0 → s.execState = .paused →
    arrive s (.event .pauseToggle) = { s with execState := .running }) ∧
  (∀ (s : State) (x : HostInput), s.execState = .quit → (arrive s x).execState = .quit) ∧
  (∀ s : State, instrsPerTick s.cfg ≤ s.batchCount + 1 → s.execState = .running → s.pendingEvents = [.pauseToggle] →
    (endInstr s).execState = .paused) ∧
  (∀ s : State, instrsPerTick s.cfg ≤ s.batchCount + 1 → .quit ∈ s.pendingEvents → (endInstr s).execState = .quit) ∧
  (∀ (s : State) (later : List (List HostInput)), s.batchCount = 0 → s.execState ≠ .quit →
    s.hostInputs = [.event .quit] :: later → step s = .next { s with execState := .quit, hostInputs := later }) ∧
  (∀ (s : State) (later : List (List HostInput)), s.batchCount = 0 → s.execState = .running →
    s.hostInputs = [.event .pauseToggle] :: later →
    step s = .next { s with execState := .paused, hostInputs := later }) ∧
  (∀ (s : State) (rest : List HostInput) (later : List (List HostInput)), s.batchCount = 0 → s.execState = .paused →
    s.hostInputs = (.event .pauseToggle :: rest) :: later →
    step s = step { s with execState := .running, hostInputs := rest :: later })

/-- A keys(k) step replaces all sixteen levels by the bits of k and changes nothing else (R171; that it may come between
any two steps is decision D15). The inputs due before a step are taken from the schedule and arrive in order (log entry 4),
and a keys(k) among them has changed the levels before the step's instruction runs. -/
def Obligations.KeysStepReplacesLevels : Prop :=
  (∀ (s : State) (k : Word),
    (∀ q : Key, (arrive s (.keys k)).keyDown q = k.getLsbD q.val) ∧
    Frame s (arrive s (.keys k)) (fun c => ∃ q, c = .key q)) ∧
  (∀ (s : State) (now : List HostInput) (later : List (List HostInput)), s.hostInputs = now :: later →
    takeHostInputs s = now.foldl arrive { s with hostInputs := later }) ∧
  (∀ (s u : State) (k : Word) (rest : List HostInput) (later : List (List HostInput)), s.execState ≠ .quit →
    s.hostInputs = (.keys k :: rest) :: later → (∀ q : Key, u.keyDown q = k.getLsbD q.val) →
    u = { s with keys := u.keys, hostInputs := rest :: later } → step s = step u)

/-- A word placed by `withFetchWord` is the instruction the next step runs, in the placed state with pc advanced by 2; and
the placed state is `s` but for the word's two bytes at pc, the tag (Running), a pc that could not be fetched (0x200), and
the inputs due before the step (none). Log entry 6. -/
def Obligations.PlacedWordIsRunNext : Prop :=
  ∀ (s : State) (w : Word),
    let r := s.withFetchWord 16 w.toNat
    step r = andThen (exec (decodeWord w) { r with pc := r.pc + 2#16, hostInputs := s.hostInputs.tail })
      (fun t => .next (endInstr t)) ∧
    r.execState = .running ∧
    r.pc = (if s.pc.toNat ≤ 4093 then s.pc else 0x200#16) ∧
    (r.readByte r.pc.toNat).toNat = w.toNat / 256 ∧ (r.readByte (r.pc.toNat + 1)).toNat = w.toNat % 256 ∧
    r.hostInputs.tail = s.hostInputs.tail ∧
    Frame s r (fun c => c = .byte r.pc.toNat ∨ c = .byte (r.pc.toNat + 1) ∨ c = .pc ∨ c = .execState ∨ c = .hostInputs)

/-! ## Display -/

/-- CLS clears every cell and sets redraw_needed; VF and all else are unchanged; 0XE0 with X not 0 is not CLS (R80; the
last by decision D8). -/
def Obligations.ClsClearsDisplay : Prop :=
  EncodedAs 0xFFFF#16 0x00E0#16 (fun _ => .cls) ∧
  (∀ x : Reg, x ≠ 0 → decodeWord (ofNibbles 0x0 x 0xE 0x0) = .nopU (ofNibbles 0x0 x 0xE 0x0)) ∧
  ∀ s : State, Completes .cls s fun t =>
    (∀ x y : Nat, t.display.cell x y = false) ∧ t.display.length = s.cfg.displayH ∧
    (∀ row ∈ t.display, row.length = s.cfg.displayW) ∧ t.redrawNeeded = true ∧
    Frame s t (fun c => c.isDisplay ∨ c = .redrawFlag)

/-- DRW on a sprite inside memory: every cell is XORed with the sprite's bit there, VF is 1 exactly when a drawn bit met a
lit cell, redraw_needed is set, nothing else changes; the coordinates are the registers' old values, VF's too (R81, R82;
decisions D2, D7, D20). -/
def Obligations.DrwXorsSpriteAndReportsCollision : Prop :=
  EncodedAs 0xF000#16 0xD000#16 (fun f => .drw f.x f.y f.n) ∧
  (∀ (s : State) (x y : Reg) (n : Fin 16),
    s.display.length = s.cfg.displayH → (∀ row ∈ s.display, row.length = s.cfg.displayW) →
    (n.val = 0 ∨ s.i.toNat + n.val ≤ 4096) →
    let bit := spriteBit s.cfg.displayW s.cfg.displayH ((s.getV x).toNat % s.cfg.displayW)
      ((s.getV y).toNat % s.cfg.displayH) (fun r => s.readByte (s.i.toNat + r)) n.val
    Completes (.drw x y n) s fun t =>
      (∀ c r : Nat, t.display.cell c r = (s.display.cell c r ^^ bit c r)) ∧
      (t.getV vF = 1#8 ∨ t.getV vF = 0#8) ∧
      (t.getV vF = 1#8 ↔ ∃ c r : Nat, bit c r = true ∧ s.display.cell c r = true) ∧
      t.redrawNeeded = true ∧
      Frame s t (fun c => c = .reg vF ∨ c.isDisplay ∨ c = .redrawFlag)) ∧
  (∀ (s : State) (x y : Reg) (n : Fin 16), n.val ≠ 0 → 4096 < s.i.toNat + n.val →
    exec (.drw x y n) s = .fault (.memoryOutOfRange (max s.i.toNat 4096)))

/-- The drawing loops with their clipping stops give the closed form: each cell is XORed with the sprite's bit, and the
collision is that some drawn bit met a lit cell (R81, R82). -/
def Obligations.DrawLoopsEqualClosedForm : Prop :=
  ∀ (d : Display) (w h x0 y0 : Nat) (row : Nat → Byte) (n : Nat),
    d.length = h → (∀ l ∈ d, l.length = w) →
    (∀ c r : Nat, (drawSprite d w h x0 y0 row n).display.cell c r =
      (d.cell c r ^^ spriteBit w h x0 y0 row n c r)) ∧
    ((drawSprite d w h x0 y0 row n).hit = true ↔
      ∃ c r : Nat, spriteBit w h x0 y0 row n c r = true ∧ d.cell c r = true)

/-- Drawing the same sprite twice at the same place restores the display; the second draw collides exactly where a drawn bit
fell on a cell that was unlit before the first, so on a clear display the first draw does not collide and the second does
exactly when the sprite has a visible 1 bit (R81, source property S5; log entry 8 on R81(j)'s wording). -/
def Obligations.DrawTwiceRestoresDisplay : Prop :=
  ∀ (d : Display) (w h x0 y0 : Nat) (row : Nat → Byte) (n : Nat),
    d.length = h → (∀ l ∈ d, l.length = w) →
    let first := drawSprite d w h x0 y0 row n
    let second := drawSprite first.display w h x0 y0 row n
    second.display = d ∧
    (second.hit = true ↔ ∃ c r : Nat, spriteBit w h x0 y0 row n c r = true ∧ d.cell c r = false) ∧
    ((∀ c r : Nat, d.cell c r = false) → first.hit = false)

/-! ## Control transfer -/

/-- RET takes the top entry into pc and drops it, and raises StackUnderflow on an empty stack; 0XEE with X not 0 is not
RET (R90, R24, R152; the last by decision D8). -/
def Obligations.RetPopsPc : Prop :=
  EncodedAs 0xFFFF#16 0x00EE#16 (fun _ => .ret) ∧
  (∀ x : Reg, x ≠ 0 → decodeWord (ofNibbles 0x0 x 0xE 0xE) = .nopU (ofNibbles 0x0 x 0xE 0xE)) ∧
  (∀ s : State, s.sp.val = 0 → exec .ret s = .fault .stackUnderflow) ∧
  (∀ (s : State) (top : Fin 16), s.sp.val = top.val + 1 → Completes .ret s fun t =>
    t.sp.val = top.val ∧ t.pc = s.stack[top.val] ∧ Frame s t (fun c => c = .pc ∨ c = .stackCursor))

/-- JP sets pc to NNN, zero-extended (R91). -/
def Obligations.JpSetsPc : Prop :=
  EncodedAs 0xF000#16 0x1000#16 (fun f => .jp f.nnn) ∧
  ∀ (s : State) (nnn : Addr12), Completes (.jp nnn) s fun t =>
    t.pc.toNat = nnn.toNat ∧ Frame s t (fun c => c = .pc)

/-- CALL stores the advanced pc at stack[sp], counts it and jumps; on a full stack it raises StackOverflow; a RET with the
stack as the CALL left it restores pc and the depth (R92, R24, R151). -/
def Obligations.CallPushesPc : Prop :=
  EncodedAs 0xF000#16 0x2000#16 (fun f => .call f.nnn) ∧
  (∀ (s : State) (nnn : Addr12), s.sp.val = s.cfg.stackCapacity.toNat →
    exec (.call nnn) s = .fault .stackOverflow) ∧
  (∀ (s : State) (nnn : Addr12) (j : Fin 16), s.sp.val = j.val → s.sp.val < s.cfg.stackCapacity.toNat →
    Completes (.call nnn) s fun t =>
      t.stack[j.val] = s.pc ∧ t.sp.val = s.sp.val + 1 ∧ t.pc.toNat = nnn.toNat ∧
      Frame s t (fun c => c = .pc ∨ c = .stackCursor ∨ c = .stackEntry j) ∧
      ∀ u : State, u.stack = t.stack → u.sp = t.sp →
        Completes .ret u fun v => v.pc = s.pc ∧ v.sp = s.sp)

/-- SE.I and SNE.I add 2 to the advanced pc when V[X] equals, respectively differs from, NN (R93, R94). -/
def Obligations.SkipsOnImmediate : Prop :=
  EncodedAs 0xF000#16 0x3000#16 (fun f => .seI f.x f.nn) ∧
  EncodedAs 0xF000#16 0x4000#16 (fun f => .sneI f.x f.nn) ∧
  ∀ (s : State) (x : Reg) (nn : Byte),
    (Completes (.seI x nn) s fun t =>
      t.pc = (if s.getV x = nn then s.pc + 2#16 else s.pc) ∧ Frame s t (fun c => c = .pc)) ∧
    (Completes (.sneI x nn) s fun t =>
      t.pc = (if s.getV x ≠ nn then s.pc + 2#16 else s.pc) ∧ Frame s t (fun c => c = .pc))

/-- SE.R and SNE.R add 2 to the advanced pc when V[X] equals, respectively differs from, V[Y]; 5XYN and 9XYN with N not 0
are unrecognized (R95, R96, R98; for class 9 decision D8). -/
def Obligations.SkipsOnRegisters : Prop :=
  EncodedAs 0xF00F#16 0x5000#16 (fun f => .seR f.x f.y) ∧
  EncodedAs 0xF00F#16 0x9000#16 (fun f => .sneR f.x f.y) ∧
  (∀ (x y : Reg) (n : Fin 16), n ≠ 0 → decodeWord (ofNibbles 0x5 x y n) = .nopU (ofNibbles 0x5 x y n) ∧
    decodeWord (ofNibbles 0x9 x y n) = .nopU (ofNibbles 0x9 x y n)) ∧
  ∀ (s : State) (x y : Reg),
    (Completes (.seR x y) s fun t =>
      t.pc = (if s.getV x = s.getV y then s.pc + 2#16 else s.pc) ∧ Frame s t (fun c => c = .pc)) ∧
    (Completes (.sneR x y) s fun t =>
      t.pc = (if s.getV x ≠ s.getV y then s.pc + 2#16 else s.pc) ∧ Frame s t (fun c => c = .pc))

/-- JP.V0 sets pc to NNN + V[0], always V[0], with no reduction modulo 4096 (R97). -/
def Obligations.JpV0AddsOffset : Prop :=
  EncodedAs 0xF000#16 0xB000#16 (fun f => .jpV0 f.nnn) ∧
  ∀ (s : State) (nnn : Addr12), Completes (.jpV0 nnn) s fun t =>
    t.pc.toNat = nnn.toNat + (s.getV 0).toNat ∧ Frame s t (fun c => c = .pc)

/-- A CALL at a and a RET at its target, run by two steps of an undisturbed machine, leave pc = a + 2 and the depth as it
was (R92, source property S7). -/
def Obligations.CallThenRetReturns : Prop :=
  ∀ (s : State) (nnn : Addr12), s.execState = .running → s.hostInputs = [] → s.pendingEvents = [] →
    s.pc.toNat ≤ 4093 → nnn.toNat ≤ 4093 → s.sp.val < s.cfg.stackCapacity.toNat →
    decodeWord (bigEndian (s.readByte s.pc.toNat) (s.readByte (s.pc.toNat + 1))) = .call nnn →
    decodeWord (bigEndian (s.readByte nnn.toNat) (s.readByte (nnn.toNat + 1))) = .ret →
    ∃ t, Sys2Proof.core.run 2 s = .next t ∧ t.pc = s.pc + 2#16 ∧ t.sp = s.sp

/-! ## Registers, arithmetic, logic -/

/-- LD.I loads NN and LD.R copies V[Y]; no other element changes (R100, R102). -/
def Obligations.LoadsWriteOneRegister : Prop :=
  EncodedAs 0xF000#16 0x6000#16 (fun f => .ldI f.x f.nn) ∧
  EncodedAs 0xF00F#16 0x8000#16 (fun f => .ldR f.x f.y) ∧
  (∀ (s : State) (x : Reg) (nn : Byte), Completes (.ldI x nn) s fun t =>
    t.getV x = nn ∧ Frame s t (fun c => c = .reg x)) ∧
  (∀ (s : State) (x y : Reg), Completes (.ldR x y) s fun t =>
    t.getV x = s.getV y ∧ Frame s t (fun c => c = .reg x))

/-- ADD.I adds NN modulo 256 and writes no flag (R101, R111). -/
def Obligations.AddImmediateWrapsWithoutFlag : Prop :=
  EncodedAs 0xF000#16 0x7000#16 (fun f => .addI f.x f.nn) ∧
  ∀ (s : State) (x : Reg) (nn : Byte), Completes (.addI x nn) s fun t =>
    (t.getV x).toNat = ((s.getV x).toNat + nn.toNat) % 256 ∧ Frame s t (fun c => c = .reg x)

/-- OR, AND and XOR write the bitwise result and then, in mode 0 only, clear VF; mode 1 leaves VF alone (R103, R104, R105;
that with X = 15 the clear comes last is decision D6, where U5 says both readings agree). -/
def Obligations.LogicOpsAndTheirFlagClear : Prop :=
  EncodedAs 0xF00F#16 0x8001#16 (fun f => .or f.x f.y) ∧
  EncodedAs 0xF00F#16 0x8002#16 (fun f => .and f.x f.y) ∧
  EncodedAs 0xF00F#16 0x8003#16 (fun f => .xor f.x f.y) ∧
  ∀ (s : State) (x y : Reg),
    Completes (.or x y) s (LogicLeaves s x (s.getV x ||| s.getV y)) ∧
    Completes (.and x y) s (LogicLeaves s x (s.getV x &&& s.getV y)) ∧
    Completes (.xor x y) s (LogicLeaves s x (s.getV x ^^^ s.getV y))

/-- ADD.R for every pair of registers: the sum modulo 256 and the carry; with X = 15 the sum survives and the carry is
lost (R106, R112; the X = 15 case rests on decision D6). -/
def Obligations.AddRegistersWithCarry : Prop :=
  EncodedAs 0xF00F#16 0x8004#16 (fun f => .addR f.x f.y) ∧
  ∀ (s : State) (x y : Reg), Completes (.addR x y) s fun t =>
    (t.getV x).toNat = ((s.getV x).toNat + (s.getV y).toNat) % 256 ∧
    (x ≠ vF → (t.getV vF).toNat = if (s.getV x).toNat + (s.getV y).toNat > 255 then 1 else 0) ∧
    Frame s t (fun c => c = .reg x ∨ c = .reg vF)

/-- SUB for every pair of registers, f being the no-borrow flag it writes first: V[X] − V[Y] modulo 256 with f, the new
flag, standing for VF where VF is an operand (R107, R111, R112; the X = 15 and Y = 15 cases rest on decision D6). -/
def Obligations.SubtractWithNoBorrowFlag : Prop :=
  EncodedAs 0xF00F#16 0x8005#16 (fun f => .sub f.x f.y) ∧
  ∀ (s : State) (x y : Reg),
    let a := (s.getV x).toNat
    let b := (s.getV y).toNat
    let f := if a ≥ b then 1 else 0
    Completes (.sub x y) s fun t =>
      (x ≠ vF → y ≠ vF → (t.getV x).toNat = (a + 256 - b) % 256 ∧ (t.getV vF).toNat = f) ∧
      (x ≠ vF → y = vF → (t.getV x).toNat = (a + 256 - f) % 256 ∧ (t.getV vF).toNat = f) ∧
      (x = vF → y ≠ vF → (t.getV vF).toNat = (f + 256 - b) % 256) ∧
      (x = vF → y = vF → (t.getV vF).toNat = 0) ∧
      Frame s t (fun c => c = .reg x ∨ c = .reg vF)

/-- SUBN for every pair of registers, f being the no-borrow flag it writes first: V[Y] − V[X] modulo 256 with f standing
for VF where VF is an operand (R109, R111, R112; the X = 15 and Y = 15 cases rest on decision D6). -/
def Obligations.ReverseSubtractWithNoBorrowFlag : Prop :=
  EncodedAs 0xF00F#16 0x8007#16 (fun f => .subn f.x f.y) ∧
  ∀ (s : State) (x y : Reg),
    let a := (s.getV x).toNat
    let b := (s.getV y).toNat
    let f := if b ≥ a then 1 else 0
    Completes (.subn x y) s fun t =>
      (x ≠ vF → y ≠ vF → (t.getV x).toNat = (b + 256 - a) % 256 ∧ (t.getV vF).toNat = f) ∧
      (x ≠ vF → y = vF → (t.getV x).toNat = (f + 256 - a) % 256 ∧ (t.getV vF).toNat = f) ∧
      (x = vF → y ≠ vF → (t.getV vF).toNat = (b + 256 - f) % 256) ∧
      (x = vF → y = vF → (t.getV vF).toNat = 0) ∧
      Frame s t (fun c => c = .reg x ∨ c = .reg vF)

/-- SHR and SHL shift V[Y] in mode 0 and V[X] in mode 1 by one, and write the bit shifted out to VF last (R108, R110; that
with X = 15 the flag comes last is decision D6, where U5 says both readings agree). -/
def Obligations.ShiftsAndTheirSource : Prop :=
  EncodedAs 0xF00F#16 0x8006#16 (fun f => .shr f.x f.y) ∧
  EncodedAs 0xF00F#16 0x800E#16 (fun f => .shl f.x f.y) ∧
  ∀ (s : State) (x y : Reg),
    let src := if s.cfg.extMode = .original then (s.getV y).toNat else (s.getV x).toNat
    Completes (.shr x y) s (ShiftLeaves s x (src / 2) (src % 2)) ∧
    Completes (.shl x y) s (ShiftLeaves s x (2 * src % 256) (src / 128))

/-! ## Index register and memory -/

/-- LD.A, ADD.A and LD.F write I and nothing else: NNN, I + V[X] modulo 65536 with no flag, 5·V[X] (R120, R121,
R122; the wrap at 16 bits is marked as derived in R121). -/
def Obligations.IndexWrites : Prop :=
  EncodedAs 0xF000#16 0xA000#16 (fun f => .ldA f.nnn) ∧
  EncodedAs 0xF0FF#16 0xF01E#16 (fun f => .addA f.x) ∧
  EncodedAs 0xF0FF#16 0xF029#16 (fun f => .ldF f.x) ∧
  (∀ (s : State) (nnn : Addr12), Completes (.ldA nnn) s fun t =>
    t.i.toNat = nnn.toNat ∧ Frame s t (fun c => c = .index)) ∧
  (∀ (s : State) (x : Reg), Completes (.addA x) s fun t =>
    t.i.toNat = (s.i.toNat + (s.getV x).toNat) % 65536 ∧ Frame s t (fun c => c = .index)) ∧
  (∀ (s : State) (x : Reg), Completes (.ldF x) s fun t =>
    t.i.toNat = 5 * (s.getV x).toNat ∧ Frame s t (fun c => c = .index))

/-- BCD stores the hundreds, tens and ones of V[X] at I, I+1, I+2 and nothing else; with I above 4093 it raises
MemoryOutOfRange (R123; the fault is decision D2). -/
def Obligations.BcdStoresDigits : Prop :=
  EncodedAs 0xF0FF#16 0xF033#16 (fun f => .bcd f.x) ∧
  (∀ (s : State) (x : Reg), s.i.toNat + 2 ≤ 4095 → Completes (.bcd x) s fun t =>
    (t.readByte s.dataBase).toNat = (s.getV x).toNat / 100 ∧
    (t.readByte (s.dataBase + 1)).toNat = (s.getV x).toNat / 10 % 10 ∧
    (t.readByte (s.dataBase + 2)).toNat = (s.getV x).toNat % 10 ∧
    Frame s t (fun c => c = .byte s.dataBase ∨ c = .byte (s.dataBase + 1) ∨ c = .byte (s.dataBase + 2))) ∧
  (∀ (s : State) (x : Reg), 4095 < s.i.toNat + 2 →
    exec (.bcd x) s = .fault (.memoryOutOfRange (max s.i.toNat 4096)))

/-- STM stores V[0] to V[X] at I upward, and then I advances by X + 1 in mode 0 and stays in mode 1; out of range it raises
MemoryOutOfRange (R124; the fault and its precision are decisions D2 and D21). -/
def Obligations.StmStoresRegisters : Prop :=
  EncodedAs 0xF0FF#16 0xF055#16 (fun f => .stm f.x) ∧
  (∀ (s : State) (x : Reg), s.i.toNat + x.val ≤ 4095 → Completes (.stm x) s fun t =>
    (∀ r : Reg, r.val ≤ x.val → t.readByte (s.dataBase + r.val) = s.getV r) ∧
    t.i.toNat = (if s.cfg.extMode = .original then s.i.toNat + x.val + 1 else s.i.toNat) ∧
    Frame s t (fun c => c = .index ∨ ∃ r : Nat, r ≤ x.val ∧ c = .byte (s.dataBase + r))) ∧
  (∀ (s : State) (x : Reg), 4095 < s.i.toNat + x.val →
    exec (.stm x) s = .fault (.memoryOutOfRange (max s.i.toNat 4096)))

/-- LDM loads V[0] to V[X] from I upward, VF as data too, leaves the registers above X, and moves I as STM does; out of
range it raises MemoryOutOfRange (R125; the fault and its precision are decisions D2 and D21). -/
def Obligations.LdmLoadsRegisters : Prop :=
  EncodedAs 0xF0FF#16 0xF065#16 (fun f => .ldm f.x) ∧
  (∀ (s : State) (x : Reg), s.i.toNat + x.val ≤ 4095 → Completes (.ldm x) s fun t =>
    (∀ r : Reg, r.val ≤ x.val → t.getV r = s.readByte (s.dataBase + r.val)) ∧
    t.i.toNat = (if s.cfg.extMode = .original then s.i.toNat + x.val + 1 else s.i.toNat) ∧
    Frame s t (fun c => c = .index ∨ ∃ r : Reg, r.val ≤ x.val ∧ c = .reg r)) ∧
  (∀ (s : State) (x : Reg), 4095 < s.i.toNat + x.val →
    exec (.ldm x) s = .fault (.memoryOutOfRange (max s.i.toNat 4096)))

/-- A store into the instruction stream is seen by the very next fetch (R51): after STM over both bytes at pc, the opcode
there is the two registers stored. -/
def Obligations.StoreIsSeenByNextFetch : Prop :=
  ∀ (s t : State) (x p q : Reg), exec (.stm x) s = .next t → p.val ≤ x.val → q.val ≤ x.val →
    s.pc.toNat = s.dataBase + p.val → s.pc.toNat + 1 = s.dataBase + q.val →
    t.opcodeAtPc = bigEndian (s.getV p) (s.getV q)

/-! ## Random, keypad, timers -/

/-- RND writes the drawn byte ANDed with NN, for whatever byte port `rand` presents, so bits outside NN are 0; each
execution takes the next draw (R130; the free draw is decision D10 and log entry 3). -/
def Obligations.RndMasksADraw : Prop :=
  EncodedAs 0xF000#16 0xC000#16 (fun f => .rnd f.x f.nn) ∧
  (∀ (s : State) (x : Reg) (nn draw : Byte), (rndWith draw x nn s).getV x = draw &&& nn ∧
    Frame s (rndWith draw x nn s) (fun c => c = .reg x ∨ c = .randDraws)) ∧
  ∀ (s : State) (x : Reg) (nn : Byte), Completes (.rnd x nn) s fun t =>
    t = rndWith (Config.randByte s.randDraws) x nn s ∧ t.getV x &&& ~~~nn = 0#8 ∧
    t.randDraws = s.randDraws + 1

/-- SKP and SKNP test the level of the key V[X] names, and raise KeyIndexOutOfRange when V[X] > 15 (R131, R132; the fault
is decision D4). -/
def Obligations.KeySkips : Prop :=
  EncodedAs 0xF0FF#16 0xE09E#16 (fun f => .skp f.x) ∧
  EncodedAs 0xF0FF#16 0xE0A1#16 (fun f => .sknp f.x) ∧
  (∀ (s : State) (x : Reg) (k : Key), (s.getV x).toNat = k.val →
    (Completes (.skp x) s fun t =>
      t.pc = (if s.keyDown k = true then s.pc + 2#16 else s.pc) ∧ Frame s t (fun c => c = .pc)) ∧
    (Completes (.sknp x) s fun t =>
      t.pc = (if s.keyDown k = false then s.pc + 2#16 else s.pc) ∧ Frame s t (fun c => c = .pc))) ∧
  (∀ (s : State) (x : Reg), 15 < (s.getV x).toNat →
    exec (.skp x) s = .fault (.keyIndexOutOfRange (s.getV x).toNat) ∧
    exec (.sknp x) s = .fault (.keyIndexOutOfRange (s.getV x).toNat))

/-- LD.DT, ST.DT and ST.ST move a byte between V[X] and a timer; the timer read is unchanged (R133, R135, R136). -/
def Obligations.TimerMoves : Prop :=
  EncodedAs 0xF0FF#16 0xF007#16 (fun f => .ldDt f.x) ∧
  EncodedAs 0xF0FF#16 0xF015#16 (fun f => .stDt f.x) ∧
  EncodedAs 0xF0FF#16 0xF018#16 (fun f => .stSt f.x) ∧
  ∀ (s : State) (x : Reg),
    (Completes (.ldDt x) s fun t => t.getV x = s.dt ∧ Frame s t (fun c => c = .reg x)) ∧
    (Completes (.stDt x) s fun t => t.dt = s.getV x ∧ Frame s t (fun c => c = .delayTimer)) ∧
    (Completes (.stSt x) s fun t => t.st = s.getV x ∧ t.soundOn = decide (0 < (s.getV x).toNat) ∧
      Frame s t (fun c => c = .soundTimer))

/-- One execution of LD.K in each of its phases: no key down, stall; a key down, latch the lowest and stall; the latched
key still down, stall; released, commit its index and go on (R134; the lowest key and the level reading are decision
D9). -/
def Obligations.KeyWaitPhases : Prop :=
  EncodedAs 0xF0FF#16 0xF00A#16 (fun f => .ldK f.x) ∧
  (∀ (s : State) (x : Reg), s.pendingKey = none → (∀ k, s.keyDown k = false) →
    Completes (.ldK x) s fun t => t.pc = s.pc - 2#16 ∧ Frame s t (fun c => c = .pc)) ∧
  (∀ (s : State) (x : Reg) (k : Key), s.pendingKey = none → s.keyDown k = true →
    (∀ j : Key, j.val < k.val → s.keyDown j = false) →
    Completes (.ldK x) s fun t => t.pendingKey = some k ∧ t.pc = s.pc - 2#16 ∧
      Frame s t (fun c => c = .pc ∨ c = .keyLatch)) ∧
  (∀ (s : State) (x : Reg) (k : Key), s.pendingKey = some k → s.keyDown k = true →
    Completes (.ldK x) s fun t => t.pc = s.pc - 2#16 ∧ Frame s t (fun c => c = .pc)) ∧
  (∀ (s : State) (x : Reg) (k : Key), s.pendingKey = some k → s.keyDown k = false →
    Completes (.ldK x) s fun t => (t.getV x).toNat = k.val ∧ t.pendingKey = none ∧
      Frame s t (fun c => c = .reg x ∨ c = .keyLatch))

/-- While LD.K stalls, a whole step leaves pc at the instruction itself: it completes only at the step that finds the
latched key released (R134, source property S8; with the key levels as the host last set them). -/
def Obligations.KeyWaitStallsAtItsOwnAddress : Prop :=
  ∀ (s : State) (x : Reg), s.execState = .running → s.hostInputs = [] → s.pc.toNat ≤ 4093 →
    decodeWord s.opcodeAtPc = .ldK x →
    ∃ t, step s = .next t ∧
      (t.pc = s.pc ↔ ¬ ∃ k, s.pendingKey = some k ∧ s.keyDown k = false) ∧
      (t.pc = s.pc → ∀ r, t.getV r = s.getV r) ∧
      (∀ k, s.pendingKey = some k → s.keyDown k = false →
        (t.getV x).toNat = k.val ∧ t.pc = s.pc + 2#16 ∧ t.pendingKey = none)

/-- sound_on is 1 exactly while ST > 0; no instruction but ST.ST changes it, and a tick takes it from 1 to 0 exactly when
it brings ST to 0 (R170). -/
def Obligations.SoundFollowsSoundTimer : Prop :=
  (∀ s : State, s.soundOn = true ↔ 0 < s.st.toNat) ∧
  (∀ (i : Instr) (s t : State), exec i s = .next t → (∀ x, i ≠ .stSt x) → t.soundOn = s.soundOn) ∧
  (∀ s : State, (tick s).soundOn = true ↔ 1 < s.st.toNat)

/-! ## Unrecognized opcodes -/

/-- An opcode that matches no row is a no-op: the state after the fetch is unchanged, in both modes, and nothing is
raised (R140, R66, R158; which words of classes 0, 5, 9 and E these are is decision D8). -/
def Obligations.UnrecognizedOpcodesDoNothing : Prop :=
  ∀ (w : Word) (s : State), recognized w = false → decodeWord w = .nopU w ∧ exec (.nopU w) s = .next s

/-! ## The whole machine -/

/-- Every instruction writes only what its rules list, in every state: all registers, flags, timers, stack entries, cells
and bytes outside that list are unchanged (R20 to R31, R45, R53). -/
def Obligations.InstructionsWriteOnlyTheirOwn : Prop :=
  ∀ (i : Instr) (s t : State), exec i s = .next t → Frame s t (mayWrite s i)

/-- VF changes only under the opcodes of R21's list, in the modes it gives, or where an instruction names VF as its
destination. -/
def Obligations.FlagWrittenOnlyByListedOpcodes : Prop :=
  ∀ (i : Instr) (s t : State), exec i s = .next t → writesFlag s.cfg.extMode i = false →
    namesFlagAsDestination i = false → t.getV vF = s.getV vF

/-- No instruction changes the configuration, the execution-state tag, a key level, batch_count or the host's own queues
(R15, R29, R30, R32: "no opcode triggers" a transition). -/
def Obligations.NoInstructionActsForTheHost : Prop :=
  ∀ (i : Instr) (s t : State), exec i s = .next t →
    t.cfg = s.cfg ∧ t.execState = s.execState ∧ t.keys = s.keys ∧ t.batchCount = s.batchCount ∧
    t.pendingEvents = s.pendingEvents ∧ t.hostInputs = s.hostInputs

/-- The configuration is what `load` was given and no step changes it (R15). -/
def Obligations.ConfigurationIsImmutable : Prop :=
  (∀ (c : Config) (rom : Option (List Byte)) (s : State), load c rom = .next s → s.cfg = c) ∧
  (∀ (i : Instr) (s t : State), exec i s = .next t → t.cfg = s.cfg) ∧
  (∀ s : State, (tick s).cfg = s.cfg) ∧
  (∀ (s : State) (x : HostInput), (arrive s x).cfg = s.cfg) ∧
  (∀ s t : State, step s = .next t → t.cfg = s.cfg)

/-- The execution of an instruction faults in exactly the cases of R150, with the condition named there, and is never
refused; all other execution is total (R150, R162; MemoryOutOfRange and KeyIndexOutOfRange are decisions D2 and D4). R150
names sp = STACK_CAPACITY; that CALL faults above it too, in states that no run reaches, is the model's choice, log entry
21. -/
def Obligations.InstructionsFaultExactlyAsListed : Prop :=
  ∀ (i : Instr) (s : State),
    (∀ r, exec i s ≠ .refused r) ∧
    ∀ f, exec i s = .fault f ↔
      (i = .ret ∧ s.sp.val = 0 ∧ f = .stackUnderflow) ∨
      ((∃ nnn, i = .call nnn) ∧ s.cfg.stackCapacity.toNat ≤ s.sp.val ∧ f = .stackOverflow) ∨
      ((∃ x y n, i = .drw x y n ∧ n.val ≠ 0 ∧ 4096 < s.i.toNat + n.val) ∧
        f = .memoryOutOfRange (max s.i.toNat 4096)) ∨
      ((∃ x, i = .bcd x) ∧ 4096 < s.i.toNat + 3 ∧ f = .memoryOutOfRange (max s.i.toNat 4096)) ∨
      ((∃ x, (i = .stm x ∨ i = .ldm x) ∧ 4096 < s.i.toNat + x.val + 1) ∧
        f = .memoryOutOfRange (max s.i.toNat 4096)) ∨
      (∃ x, (i = .skp x ∨ i = .sknp x) ∧ 15 < (s.getV x).toNat ∧ f = .keyIndexOutOfRange (s.getV x).toNat)

/-- EXT_MODE alters only the seven opcodes of R13: every other instruction does the same in both modes, up to the mode bit
itself. -/
def Obligations.ExtModeAltersOnlySevenOpcodes : Prop :=
  ∀ (i : Instr) (s : State) (m : ExtMode), readsExtMode i = false →
    exec i { s with cfg := { s.cfg with extMode := m } } =
      andThen (exec i s) fun t => .next { t with cfg := { t.cfg with extMode := m } }

/-- What no opcode reads cannot matter: whatever value such an element is given before an instruction, the outcome is the
same up to that element. ST but for FX18, redraw_needed but for 00E0 and DXYN, batch_count, the tag and the host's queues for
every opcode; DT but for FX07 and FX15, pending_key but for FX0A (R25, R26, R28, R30, R31, R32). -/
def Obligations.ElementsNoOpcodeReadsDoNotMatter : Prop :=
  ∀ (i : Instr) (s : State),
    ((∀ x, i ≠ .stSt x) → ∀ b, exec i (s.setSound b) = andThen (exec i s) fun t => .next (t.setSound b)) ∧
    (i ≠ .cls → (∀ x y n, i ≠ .drw x y n) →
      ∀ b, exec i (s.setRedraw b) = andThen (exec i s) fun t => .next (t.setRedraw b)) ∧
    (∀ n, exec i (s.setBatchCount n) = andThen (exec i s) fun t => .next (t.setBatchCount n)) ∧
    (∀ e, exec i (s.setExecState e) = andThen (exec i s) fun t => .next (t.setExecState e)) ∧
    (∀ l, exec i (s.setPendingEvents l) = andThen (exec i s) fun t => .next (t.setPendingEvents l)) ∧
    (∀ l, exec i (s.setHostInputs l) = andThen (exec i s) fun t => .next (t.setHostInputs l)) ∧
    ((∀ x, i ≠ .ldDt x) → (∀ x, i ≠ .stDt x) →
      ∀ b, exec i (s.setDelay b) = andThen (exec i s) fun t => .next (t.setDelay b)) ∧
    ((∀ x, i ≠ .ldK x) → ∀ p, exec i (s.setPendingKey p) = andThen (exec i s) fun t => .next (t.setPendingKey p))

/-- Dead stack entries are never read: two machines that differ only in them step alike (R24). -/
def Obligations.DeadStackEntriesAreUnobservable : Prop :=
  ∀ s t : State, SameButDeadEntries s t → OutcomesAgree (step s) (step t)

/-! ## Invariants, reset and load -/

/-- Every step keeps the invariants of R37, R27, R32 and R168: from any state that meets them, not only from reset. -/
def Obligations.StepKeepsInvariants : Prop :=
  ∀ s t : State, s.Inv → step s = .next t → t.Inv

/-- Every step keeps pc at most 0x10FE and the live stack entries at most 4095 (R23, its derived bound). -/
def Obligations.StepKeepsPcBound : Prop :=
  ∀ s t : State, s.PcInv → step s = .next t → t.PcInv

/-- The state after reset meets both invariants. -/
def Obligations.ResetMeetsInvariants : Prop :=
  State.reset.Inv ∧ State.reset.PcInv

/-- Every state of every run, whatever the ROM, the configuration and the host's schedule, meets both invariants (R37,
R23). -/
def Obligations.ReachableStatesMeetInvariants : Prop :=
  ∀ s : State, Reachable s → s.Inv ∧ s.PcInv

/-- The values reset leaves that the spec states from its source: pc at 0x200, the stack empty, Running, the font then
zeros in memory. The zeros of V, I, DT, ST, the display, redraw_needed, pending_key, batch_count and the keys are decision
D5, log entry 7; the configuration is the model's choice, log entries 1 and 2, and no ROM is placed, log entry 6. -/
def Obligations.ResetValues : Prop :=
  State.reset.pc = 0x200#16 ∧ State.reset.sp.val = 0 ∧ State.reset.execState = .running ∧
  (∀ a : Fin 80, State.reset.readByte a.val = State.reset.cfg.font[a.val]) ∧
  (∀ a : Nat, 80 ≤ a → a < 4096 → State.reset.readByte a = 0#8) ∧
  (∀ r : Reg, State.reset.getV r = 0#8) ∧ State.reset.i = 0#16 ∧ State.reset.dt = 0#8 ∧ State.reset.st = 0#8 ∧
  (∀ x y : Nat, State.reset.display.cell x y = false) ∧ State.reset.redrawNeeded = false ∧
  State.reset.pendingKey = none ∧ State.reset.batchCount = 0 ∧ (∀ k : Key, State.reset.keyDown k = false)

/-- Load under a legal configuration: a ROM of at most 3584 bytes is at 0x200 upward, the font at 0, zeros elsewhere in
memory, pc at 0x200, the stack empty, the machine Running (R47, R180, R35; the font's bytes are the parameter of decision
D14). The zeros of V, I, DT, ST, the display, redraw_needed, batch_count and the keys and the empty pending_key are
decision D5, log entry 7. -/
def Obligations.LoadPlacesRomAndFont : Prop :=
  ∀ (c : Config) (rom : List Byte), c.legal = true → rom.length ≤ 3584 →
    ∃ s, load c (some rom) = .next s ∧
      (∀ (j : Nat) (h : j < rom.length), s.readByte (0x200 + j) = rom[j]) ∧
      (∀ a : Fin 80, s.readByte a.val = c.font[a.val]) ∧
      (∀ a : Nat, 80 ≤ a → a < 4096 → (a < 0x200 ∨ 0x200 + rom.length ≤ a) → s.readByte a = 0#8) ∧
      s.pc = 0x200#16 ∧ s.sp.val = 0 ∧ s.execState = .running ∧ s.cfg = c ∧
      (∀ r : Reg, s.getV r = 0#8) ∧ s.i = 0#16 ∧ s.dt = 0#8 ∧ s.st = 0#8 ∧
      (∀ x y : Nat, s.display.cell x y = false) ∧ s.redrawNeeded = false ∧
      s.pendingKey = none ∧ s.batchCount = 0 ∧ (∀ k : Key, s.keyDown k = false) ∧ s.Inv

/-- RomTooLarge is raised exactly for a ROM longer than 3584 bytes, and no machine exists then (R156). -/
def Obligations.LongRomIsRejected : Prop :=
  ∀ (c : Config) (rom : List Byte), c.legal = true →
    (load c (some rom) = .fault .romTooLarge ↔ 3584 < rom.length) ∧
    (3584 < rom.length → ∀ s, load c (some rom) ≠ .next s)
end

