-- ==== Sys2Proof/Laws/State.lean ====
section
/-! SUPPORT. What each update of State leaves in each field, and what the accessors read after it: one lemma a field and
update, so that no later proof unfolds a record update. -/

namespace Sys2Proof.Machine

variable (s : State)

/-! ### setV -/

@[simp] theorem State.setV_cfg (r : Reg) (b : Byte) : (s.setV r b).cfg = s.cfg := rfl
@[simp] theorem State.setV_mem (r : Reg) (b : Byte) : (s.setV r b).mem = s.mem := rfl
@[simp] theorem State.setV_v (r : Reg) (b : Byte) : (s.setV r b).v = s.v.set r.val b := rfl
@[simp] theorem State.setV_i (r : Reg) (b : Byte) : (s.setV r b).i = s.i := rfl
@[simp] theorem State.setV_pc (r : Reg) (b : Byte) : (s.setV r b).pc = s.pc := rfl
@[simp] theorem State.setV_stack (r : Reg) (b : Byte) : (s.setV r b).stack = s.stack := rfl
@[simp] theorem State.setV_sp (r : Reg) (b : Byte) : (s.setV r b).sp = s.sp := rfl
@[simp] theorem State.setV_dt (r : Reg) (b : Byte) : (s.setV r b).dt = s.dt := rfl
@[simp] theorem State.setV_st (r : Reg) (b : Byte) : (s.setV r b).st = s.st := rfl
@[simp] theorem State.setV_display (r : Reg) (b : Byte) : (s.setV r b).display = s.display := rfl
@[simp] theorem State.setV_redrawNeeded (r : Reg) (b : Byte) : (s.setV r b).redrawNeeded = s.redrawNeeded := rfl
@[simp] theorem State.setV_keys (r : Reg) (b : Byte) : (s.setV r b).keys = s.keys := rfl
@[simp] theorem State.setV_execState (r : Reg) (b : Byte) : (s.setV r b).execState = s.execState := rfl
@[simp] theorem State.setV_pendingKey (r : Reg) (b : Byte) : (s.setV r b).pendingKey = s.pendingKey := rfl
@[simp] theorem State.setV_batchCount (r : Reg) (b : Byte) : (s.setV r b).batchCount = s.batchCount := rfl
@[simp] theorem State.setV_pendingEvents (r : Reg) (b : Byte) : (s.setV r b).pendingEvents = s.pendingEvents := rfl
@[simp] theorem State.setV_hostInputs (r : Reg) (b : Byte) : (s.setV r b).hostInputs = s.hostInputs := rfl
@[simp] theorem State.setV_randDraws (r : Reg) (b : Byte) : (s.setV r b).randDraws = s.randDraws := rfl
@[simp] theorem State.readByte_setV (r : Reg) (b : Byte) (x : Nat) : (s.setV r b).readByte x = s.readByte x := rfl
@[simp] theorem State.keyDown_setV (r : Reg) (b : Byte) (q : Key) : (s.setV r b).keyDown q = s.keyDown q := rfl

/-! ### setIndex -/

@[simp] theorem State.setIndex_cfg (w : Word) : (s.setIndex w).cfg = s.cfg := rfl
@[simp] theorem State.setIndex_mem (w : Word) : (s.setIndex w).mem = s.mem := rfl
@[simp] theorem State.setIndex_v (w : Word) : (s.setIndex w).v = s.v := rfl
@[simp] theorem State.setIndex_i (w : Word) : (s.setIndex w).i = w := rfl
@[simp] theorem State.setIndex_pc (w : Word) : (s.setIndex w).pc = s.pc := rfl
@[simp] theorem State.setIndex_stack (w : Word) : (s.setIndex w).stack = s.stack := rfl
@[simp] theorem State.setIndex_sp (w : Word) : (s.setIndex w).sp = s.sp := rfl
@[simp] theorem State.setIndex_dt (w : Word) : (s.setIndex w).dt = s.dt := rfl
@[simp] theorem State.setIndex_st (w : Word) : (s.setIndex w).st = s.st := rfl
@[simp] theorem State.setIndex_display (w : Word) : (s.setIndex w).display = s.display := rfl
@[simp] theorem State.setIndex_redrawNeeded (w : Word) : (s.setIndex w).redrawNeeded = s.redrawNeeded := rfl
@[simp] theorem State.setIndex_keys (w : Word) : (s.setIndex w).keys = s.keys := rfl
@[simp] theorem State.setIndex_execState (w : Word) : (s.setIndex w).execState = s.execState := rfl
@[simp] theorem State.setIndex_pendingKey (w : Word) : (s.setIndex w).pendingKey = s.pendingKey := rfl
@[simp] theorem State.setIndex_batchCount (w : Word) : (s.setIndex w).batchCount = s.batchCount := rfl
@[simp] theorem State.setIndex_pendingEvents (w : Word) : (s.setIndex w).pendingEvents = s.pendingEvents := rfl
@[simp] theorem State.setIndex_hostInputs (w : Word) : (s.setIndex w).hostInputs = s.hostInputs := rfl
@[simp] theorem State.setIndex_randDraws (w : Word) : (s.setIndex w).randDraws = s.randDraws := rfl
@[simp] theorem State.getV_setIndex (w : Word) (q : Reg) : (s.setIndex w).getV q = s.getV q := rfl
@[simp] theorem State.readByte_setIndex (w : Word) (x : Nat) : (s.setIndex w).readByte x = s.readByte x := rfl
@[simp] theorem State.keyDown_setIndex (w : Word) (q : Key) : (s.setIndex w).keyDown q = s.keyDown q := rfl

/-! ### setPc -/

@[simp] theorem State.setPc_cfg (w : Word) : (s.setPc w).cfg = s.cfg := rfl
@[simp] theorem State.setPc_mem (w : Word) : (s.setPc w).mem = s.mem := rfl
@[simp] theorem State.setPc_v (w : Word) : (s.setPc w).v = s.v := rfl
@[simp] theorem State.setPc_i (w : Word) : (s.setPc w).i = s.i := rfl
@[simp] theorem State.setPc_pc (w : Word) : (s.setPc w).pc = w := rfl
@[simp] theorem State.setPc_stack (w : Word) : (s.setPc w).stack = s.stack := rfl
@[simp] theorem State.setPc_sp (w : Word) : (s.setPc w).sp = s.sp := rfl
@[simp] theorem State.setPc_dt (w : Word) : (s.setPc w).dt = s.dt := rfl
@[simp] theorem State.setPc_st (w : Word) : (s.setPc w).st = s.st := rfl
@[simp] theorem State.setPc_display (w : Word) : (s.setPc w).display = s.display := rfl
@[simp] theorem State.setPc_redrawNeeded (w : Word) : (s.setPc w).redrawNeeded = s.redrawNeeded := rfl
@[simp] theorem State.setPc_keys (w : Word) : (s.setPc w).keys = s.keys := rfl
@[simp] theorem State.setPc_execState (w : Word) : (s.setPc w).execState = s.execState := rfl
@[simp] theorem State.setPc_pendingKey (w : Word) : (s.setPc w).pendingKey = s.pendingKey := rfl
@[simp] theorem State.setPc_batchCount (w : Word) : (s.setPc w).batchCount = s.batchCount := rfl
@[simp] theorem State.setPc_pendingEvents (w : Word) : (s.setPc w).pendingEvents = s.pendingEvents := rfl
@[simp] theorem State.setPc_hostInputs (w : Word) : (s.setPc w).hostInputs = s.hostInputs := rfl
@[simp] theorem State.setPc_randDraws (w : Word) : (s.setPc w).randDraws = s.randDraws := rfl
@[simp] theorem State.getV_setPc (w : Word) (q : Reg) : (s.setPc w).getV q = s.getV q := rfl
@[simp] theorem State.readByte_setPc (w : Word) (x : Nat) : (s.setPc w).readByte x = s.readByte x := rfl
@[simp] theorem State.keyDown_setPc (w : Word) (q : Key) : (s.setPc w).keyDown q = s.keyDown q := rfl

/-! ### setDelay -/

@[simp] theorem State.setDelay_cfg (b : Byte) : (s.setDelay b).cfg = s.cfg := rfl
@[simp] theorem State.setDelay_mem (b : Byte) : (s.setDelay b).mem = s.mem := rfl
@[simp] theorem State.setDelay_v (b : Byte) : (s.setDelay b).v = s.v := rfl
@[simp] theorem State.setDelay_i (b : Byte) : (s.setDelay b).i = s.i := rfl
@[simp] theorem State.setDelay_pc (b : Byte) : (s.setDelay b).pc = s.pc := rfl
@[simp] theorem State.setDelay_stack (b : Byte) : (s.setDelay b).stack = s.stack := rfl
@[simp] theorem State.setDelay_sp (b : Byte) : (s.setDelay b).sp = s.sp := rfl
@[simp] theorem State.setDelay_dt (b : Byte) : (s.setDelay b).dt = b := rfl
@[simp] theorem State.setDelay_st (b : Byte) : (s.setDelay b).st = s.st := rfl
@[simp] theorem State.setDelay_display (b : Byte) : (s.setDelay b).display = s.display := rfl
@[simp] theorem State.setDelay_redrawNeeded (b : Byte) : (s.setDelay b).redrawNeeded = s.redrawNeeded := rfl
@[simp] theorem State.setDelay_keys (b : Byte) : (s.setDelay b).keys = s.keys := rfl
@[simp] theorem State.setDelay_execState (b : Byte) : (s.setDelay b).execState = s.execState := rfl
@[simp] theorem State.setDelay_pendingKey (b : Byte) : (s.setDelay b).pendingKey = s.pendingKey := rfl
@[simp] theorem State.setDelay_batchCount (b : Byte) : (s.setDelay b).batchCount = s.batchCount := rfl
@[simp] theorem State.setDelay_pendingEvents (b : Byte) : (s.setDelay b).pendingEvents = s.pendingEvents := rfl
@[simp] theorem State.setDelay_hostInputs (b : Byte) : (s.setDelay b).hostInputs = s.hostInputs := rfl
@[simp] theorem State.setDelay_randDraws (b : Byte) : (s.setDelay b).randDraws = s.randDraws := rfl
@[simp] theorem State.getV_setDelay (b : Byte) (q : Reg) : (s.setDelay b).getV q = s.getV q := rfl
@[simp] theorem State.readByte_setDelay (b : Byte) (x : Nat) : (s.setDelay b).readByte x = s.readByte x := rfl
@[simp] theorem State.keyDown_setDelay (b : Byte) (q : Key) : (s.setDelay b).keyDown q = s.keyDown q := rfl

/-! ### setSound -/

@[simp] theorem State.setSound_cfg (b : Byte) : (s.setSound b).cfg = s.cfg := rfl
@[simp] theorem State.setSound_mem (b : Byte) : (s.setSound b).mem = s.mem := rfl
@[simp] theorem State.setSound_v (b : Byte) : (s.setSound b).v = s.v := rfl
@[simp] theorem State.setSound_i (b : Byte) : (s.setSound b).i = s.i := rfl
@[simp] theorem State.setSound_pc (b : Byte) : (s.setSound b).pc = s.pc := rfl
@[simp] theorem State.setSound_stack (b : Byte) : (s.setSound b).stack = s.stack := rfl
@[simp] theorem State.setSound_sp (b : Byte) : (s.setSound b).sp = s.sp := rfl
@[simp] theorem State.setSound_dt (b : Byte) : (s.setSound b).dt = s.dt := rfl
@[simp] theorem State.setSound_st (b : Byte) : (s.setSound b).st = b := rfl
@[simp] theorem State.setSound_display (b : Byte) : (s.setSound b).display = s.display := rfl
@[simp] theorem State.setSound_redrawNeeded (b : Byte) : (s.setSound b).redrawNeeded = s.redrawNeeded := rfl
@[simp] theorem State.setSound_keys (b : Byte) : (s.setSound b).keys = s.keys := rfl
@[simp] theorem State.setSound_execState (b : Byte) : (s.setSound b).execState = s.execState := rfl
@[simp] theorem State.setSound_pendingKey (b : Byte) : (s.setSound b).pendingKey = s.pendingKey := rfl
@[simp] theorem State.setSound_batchCount (b : Byte) : (s.setSound b).batchCount = s.batchCount := rfl
@[simp] theorem State.setSound_pendingEvents (b : Byte) : (s.setSound b).pendingEvents = s.pendingEvents := rfl
@[simp] theorem State.setSound_hostInputs (b : Byte) : (s.setSound b).hostInputs = s.hostInputs := rfl
@[simp] theorem State.setSound_randDraws (b : Byte) : (s.setSound b).randDraws = s.randDraws := rfl
@[simp] theorem State.getV_setSound (b : Byte) (q : Reg) : (s.setSound b).getV q = s.getV q := rfl
@[simp] theorem State.readByte_setSound (b : Byte) (x : Nat) : (s.setSound b).readByte x = s.readByte x := rfl
@[simp] theorem State.keyDown_setSound (b : Byte) (q : Key) : (s.setSound b).keyDown q = s.keyDown q := rfl

/-! ### setDisplay -/

@[simp] theorem State.setDisplay_cfg (d : Display) : (s.setDisplay d).cfg = s.cfg := rfl
@[simp] theorem State.setDisplay_mem (d : Display) : (s.setDisplay d).mem = s.mem := rfl
@[simp] theorem State.setDisplay_v (d : Display) : (s.setDisplay d).v = s.v := rfl
@[simp] theorem State.setDisplay_i (d : Display) : (s.setDisplay d).i = s.i := rfl
@[simp] theorem State.setDisplay_pc (d : Display) : (s.setDisplay d).pc = s.pc := rfl
@[simp] theorem State.setDisplay_stack (d : Display) : (s.setDisplay d).stack = s.stack := rfl
@[simp] theorem State.setDisplay_sp (d : Display) : (s.setDisplay d).sp = s.sp := rfl
@[simp] theorem State.setDisplay_dt (d : Display) : (s.setDisplay d).dt = s.dt := rfl
@[simp] theorem State.setDisplay_st (d : Display) : (s.setDisplay d).st = s.st := rfl
@[simp] theorem State.setDisplay_display (d : Display) : (s.setDisplay d).display = d := rfl
@[simp] theorem State.setDisplay_redrawNeeded (d : Display) : (s.setDisplay d).redrawNeeded = s.redrawNeeded := rfl
@[simp] theorem State.setDisplay_keys (d : Display) : (s.setDisplay d).keys = s.keys := rfl
@[simp] theorem State.setDisplay_execState (d : Display) : (s.setDisplay d).execState = s.execState := rfl
@[simp] theorem State.setDisplay_pendingKey (d : Display) : (s.setDisplay d).pendingKey = s.pendingKey := rfl
@[simp] theorem State.setDisplay_batchCount (d : Display) : (s.setDisplay d).batchCount = s.batchCount := rfl
@[simp] theorem State.setDisplay_pendingEvents (d : Display) : (s.setDisplay d).pendingEvents = s.pendingEvents := rfl
@[simp] theorem State.setDisplay_hostInputs (d : Display) : (s.setDisplay d).hostInputs = s.hostInputs := rfl
@[simp] theorem State.setDisplay_randDraws (d : Display) : (s.setDisplay d).randDraws = s.randDraws := rfl
@[simp] theorem State.getV_setDisplay (d : Display) (q : Reg) : (s.setDisplay d).getV q = s.getV q := rfl
@[simp] theorem State.readByte_setDisplay (d : Display) (x : Nat) : (s.setDisplay d).readByte x = s.readByte x := rfl
@[simp] theorem State.keyDown_setDisplay (d : Display) (q : Key) : (s.setDisplay d).keyDown q = s.keyDown q := rfl

/-! ### setRedraw -/

@[simp] theorem State.setRedraw_cfg (b : Bool) : (s.setRedraw b).cfg = s.cfg := rfl
@[simp] theorem State.setRedraw_mem (b : Bool) : (s.setRedraw b).mem = s.mem := rfl
@[simp] theorem State.setRedraw_v (b : Bool) : (s.setRedraw b).v = s.v := rfl
@[simp] theorem State.setRedraw_i (b : Bool) : (s.setRedraw b).i = s.i := rfl
@[simp] theorem State.setRedraw_pc (b : Bool) : (s.setRedraw b).pc = s.pc := rfl
@[simp] theorem State.setRedraw_stack (b : Bool) : (s.setRedraw b).stack = s.stack := rfl
@[simp] theorem State.setRedraw_sp (b : Bool) : (s.setRedraw b).sp = s.sp := rfl
@[simp] theorem State.setRedraw_dt (b : Bool) : (s.setRedraw b).dt = s.dt := rfl
@[simp] theorem State.setRedraw_st (b : Bool) : (s.setRedraw b).st = s.st := rfl
@[simp] theorem State.setRedraw_display (b : Bool) : (s.setRedraw b).display = s.display := rfl
@[simp] theorem State.setRedraw_redrawNeeded (b : Bool) : (s.setRedraw b).redrawNeeded = b := rfl
@[simp] theorem State.setRedraw_keys (b : Bool) : (s.setRedraw b).keys = s.keys := rfl
@[simp] theorem State.setRedraw_execState (b : Bool) : (s.setRedraw b).execState = s.execState := rfl
@[simp] theorem State.setRedraw_pendingKey (b : Bool) : (s.setRedraw b).pendingKey = s.pendingKey := rfl
@[simp] theorem State.setRedraw_batchCount (b : Bool) : (s.setRedraw b).batchCount = s.batchCount := rfl
@[simp] theorem State.setRedraw_pendingEvents (b : Bool) : (s.setRedraw b).pendingEvents = s.pendingEvents := rfl
@[simp] theorem State.setRedraw_hostInputs (b : Bool) : (s.setRedraw b).hostInputs = s.hostInputs := rfl
@[simp] theorem State.setRedraw_randDraws (b : Bool) : (s.setRedraw b).randDraws = s.randDraws := rfl
@[simp] theorem State.getV_setRedraw (b : Bool) (q : Reg) : (s.setRedraw b).getV q = s.getV q := rfl
@[simp] theorem State.readByte_setRedraw (b : Bool) (x : Nat) : (s.setRedraw b).readByte x = s.readByte x := rfl
@[simp] theorem State.keyDown_setRedraw (b : Bool) (q : Key) : (s.setRedraw b).keyDown q = s.keyDown q := rfl

/-! ### setKeys -/

@[simp] theorem State.setKeys_cfg (k : Vector Bool 16) : (s.setKeys k).cfg = s.cfg := rfl
@[simp] theorem State.setKeys_mem (k : Vector Bool 16) : (s.setKeys k).mem = s.mem := rfl
@[simp] theorem State.setKeys_v (k : Vector Bool 16) : (s.setKeys k).v = s.v := rfl
@[simp] theorem State.setKeys_i (k : Vector Bool 16) : (s.setKeys k).i = s.i := rfl
@[simp] theorem State.setKeys_pc (k : Vector Bool 16) : (s.setKeys k).pc = s.pc := rfl
@[simp] theorem State.setKeys_stack (k : Vector Bool 16) : (s.setKeys k).stack = s.stack := rfl
@[simp] theorem State.setKeys_sp (k : Vector Bool 16) : (s.setKeys k).sp = s.sp := rfl
@[simp] theorem State.setKeys_dt (k : Vector Bool 16) : (s.setKeys k).dt = s.dt := rfl
@[simp] theorem State.setKeys_st (k : Vector Bool 16) : (s.setKeys k).st = s.st := rfl
@[simp] theorem State.setKeys_display (k : Vector Bool 16) : (s.setKeys k).display = s.display := rfl
@[simp] theorem State.setKeys_redrawNeeded (k : Vector Bool 16) : (s.setKeys k).redrawNeeded = s.redrawNeeded := rfl
@[simp] theorem State.setKeys_keys (k : Vector Bool 16) : (s.setKeys k).keys = k := rfl
@[simp] theorem State.setKeys_execState (k : Vector Bool 16) : (s.setKeys k).execState = s.execState := rfl
@[simp] theorem State.setKeys_pendingKey (k : Vector Bool 16) : (s.setKeys k).pendingKey = s.pendingKey := rfl
@[simp] theorem State.setKeys_batchCount (k : Vector Bool 16) : (s.setKeys k).batchCount = s.batchCount := rfl
@[simp] theorem State.setKeys_pendingEvents (k : Vector Bool 16) : (s.setKeys k).pendingEvents = s.pendingEvents := rfl
@[simp] theorem State.setKeys_hostInputs (k : Vector Bool 16) : (s.setKeys k).hostInputs = s.hostInputs := rfl
@[simp] theorem State.setKeys_randDraws (k : Vector Bool 16) : (s.setKeys k).randDraws = s.randDraws := rfl
@[simp] theorem State.getV_setKeys (k : Vector Bool 16) (q : Reg) : (s.setKeys k).getV q = s.getV q := rfl
@[simp] theorem State.readByte_setKeys (k : Vector Bool 16) (x : Nat) : (s.setKeys k).readByte x = s.readByte x := rfl

/-! ### setPendingKey -/

@[simp] theorem State.setPendingKey_cfg (p : Option Key) : (s.setPendingKey p).cfg = s.cfg := rfl
@[simp] theorem State.setPendingKey_mem (p : Option Key) : (s.setPendingKey p).mem = s.mem := rfl
@[simp] theorem State.setPendingKey_v (p : Option Key) : (s.setPendingKey p).v = s.v := rfl
@[simp] theorem State.setPendingKey_i (p : Option Key) : (s.setPendingKey p).i = s.i := rfl
@[simp] theorem State.setPendingKey_pc (p : Option Key) : (s.setPendingKey p).pc = s.pc := rfl
@[simp] theorem State.setPendingKey_stack (p : Option Key) : (s.setPendingKey p).stack = s.stack := rfl
@[simp] theorem State.setPendingKey_sp (p : Option Key) : (s.setPendingKey p).sp = s.sp := rfl
@[simp] theorem State.setPendingKey_dt (p : Option Key) : (s.setPendingKey p).dt = s.dt := rfl
@[simp] theorem State.setPendingKey_st (p : Option Key) : (s.setPendingKey p).st = s.st := rfl
@[simp] theorem State.setPendingKey_display (p : Option Key) : (s.setPendingKey p).display = s.display := rfl
@[simp] theorem State.setPendingKey_redrawNeeded (p : Option Key) : (s.setPendingKey p).redrawNeeded = s.redrawNeeded := rfl
@[simp] theorem State.setPendingKey_keys (p : Option Key) : (s.setPendingKey p).keys = s.keys := rfl
@[simp] theorem State.setPendingKey_execState (p : Option Key) : (s.setPendingKey p).execState = s.execState := rfl
@[simp] theorem State.setPendingKey_pendingKey (p : Option Key) : (s.setPendingKey p).pendingKey = p := rfl
@[simp] theorem State.setPendingKey_batchCount (p : Option Key) : (s.setPendingKey p).batchCount = s.batchCount := rfl
@[simp] theorem State.setPendingKey_pendingEvents (p : Option Key) : (s.setPendingKey p).pendingEvents = s.pendingEvents := rfl
@[simp] theorem State.setPendingKey_hostInputs (p : Option Key) : (s.setPendingKey p).hostInputs = s.hostInputs := rfl
@[simp] theorem State.setPendingKey_randDraws (p : Option Key) : (s.setPendingKey p).randDraws = s.randDraws := rfl
@[simp] theorem State.getV_setPendingKey (p : Option Key) (q : Reg) : (s.setPendingKey p).getV q = s.getV q := rfl
@[simp] theorem State.readByte_setPendingKey (p : Option Key) (x : Nat) : (s.setPendingKey p).readByte x = s.readByte x := rfl
@[simp] theorem State.keyDown_setPendingKey (p : Option Key) (q : Key) : (s.setPendingKey p).keyDown q = s.keyDown q := rfl

/-! ### setExecState -/

@[simp] theorem State.setExecState_cfg (e : ExecState) : (s.setExecState e).cfg = s.cfg := rfl
@[simp] theorem State.setExecState_mem (e : ExecState) : (s.setExecState e).mem = s.mem := rfl
@[simp] theorem State.setExecState_v (e : ExecState) : (s.setExecState e).v = s.v := rfl
@[simp] theorem State.setExecState_i (e : ExecState) : (s.setExecState e).i = s.i := rfl
@[simp] theorem State.setExecState_pc (e : ExecState) : (s.setExecState e).pc = s.pc := rfl
@[simp] theorem State.setExecState_stack (e : ExecState) : (s.setExecState e).stack = s.stack := rfl
@[simp] theorem State.setExecState_sp (e : ExecState) : (s.setExecState e).sp = s.sp := rfl
@[simp] theorem State.setExecState_dt (e : ExecState) : (s.setExecState e).dt = s.dt := rfl
@[simp] theorem State.setExecState_st (e : ExecState) : (s.setExecState e).st = s.st := rfl
@[simp] theorem State.setExecState_display (e : ExecState) : (s.setExecState e).display = s.display := rfl
@[simp] theorem State.setExecState_redrawNeeded (e : ExecState) : (s.setExecState e).redrawNeeded = s.redrawNeeded := rfl
@[simp] theorem State.setExecState_keys (e : ExecState) : (s.setExecState e).keys = s.keys := rfl
@[simp] theorem State.setExecState_execState (e : ExecState) : (s.setExecState e).execState = e := rfl
@[simp] theorem State.setExecState_pendingKey (e : ExecState) : (s.setExecState e).pendingKey = s.pendingKey := rfl
@[simp] theorem State.setExecState_batchCount (e : ExecState) : (s.setExecState e).batchCount = s.batchCount := rfl
@[simp] theorem State.setExecState_pendingEvents (e : ExecState) : (s.setExecState e).pendingEvents = s.pendingEvents := rfl
@[simp] theorem State.setExecState_hostInputs (e : ExecState) : (s.setExecState e).hostInputs = s.hostInputs := rfl
@[simp] theorem State.setExecState_randDraws (e : ExecState) : (s.setExecState e).randDraws = s.randDraws := rfl
@[simp] theorem State.getV_setExecState (e : ExecState) (q : Reg) : (s.setExecState e).getV q = s.getV q := rfl
@[simp] theorem State.readByte_setExecState (e : ExecState) (x : Nat) : (s.setExecState e).readByte x = s.readByte x := rfl
@[simp] theorem State.keyDown_setExecState (e : ExecState) (q : Key) : (s.setExecState e).keyDown q = s.keyDown q := rfl

/-! ### setBatchCount -/

@[simp] theorem State.setBatchCount_cfg (n : Nat) : (s.setBatchCount n).cfg = s.cfg := rfl
@[simp] theorem State.setBatchCount_mem (n : Nat) : (s.setBatchCount n).mem = s.mem := rfl
@[simp] theorem State.setBatchCount_v (n : Nat) : (s.setBatchCount n).v = s.v := rfl
@[simp] theorem State.setBatchCount_i (n : Nat) : (s.setBatchCount n).i = s.i := rfl
@[simp] theorem State.setBatchCount_pc (n : Nat) : (s.setBatchCount n).pc = s.pc := rfl
@[simp] theorem State.setBatchCount_stack (n : Nat) : (s.setBatchCount n).stack = s.stack := rfl
@[simp] theorem State.setBatchCount_sp (n : Nat) : (s.setBatchCount n).sp = s.sp := rfl
@[simp] theorem State.setBatchCount_dt (n : Nat) : (s.setBatchCount n).dt = s.dt := rfl
@[simp] theorem State.setBatchCount_st (n : Nat) : (s.setBatchCount n).st = s.st := rfl
@[simp] theorem State.setBatchCount_display (n : Nat) : (s.setBatchCount n).display = s.display := rfl
@[simp] theorem State.setBatchCount_redrawNeeded (n : Nat) : (s.setBatchCount n).redrawNeeded = s.redrawNeeded := rfl
@[simp] theorem State.setBatchCount_keys (n : Nat) : (s.setBatchCount n).keys = s.keys := rfl
@[simp] theorem State.setBatchCount_execState (n : Nat) : (s.setBatchCount n).execState = s.execState := rfl
@[simp] theorem State.setBatchCount_pendingKey (n : Nat) : (s.setBatchCount n).pendingKey = s.pendingKey := rfl
@[simp] theorem State.setBatchCount_batchCount (n : Nat) : (s.setBatchCount n).batchCount = n := rfl
@[simp] theorem State.setBatchCount_pendingEvents (n : Nat) : (s.setBatchCount n).pendingEvents = s.pendingEvents := rfl
@[simp] theorem State.setBatchCount_hostInputs (n : Nat) : (s.setBatchCount n).hostInputs = s.hostInputs := rfl
@[simp] theorem State.setBatchCount_randDraws (n : Nat) : (s.setBatchCount n).randDraws = s.randDraws := rfl
@[simp] theorem State.getV_setBatchCount (n : Nat) (q : Reg) : (s.setBatchCount n).getV q = s.getV q := rfl
@[simp] theorem State.readByte_setBatchCount (n : Nat) (x : Nat) : (s.setBatchCount n).readByte x = s.readByte x := rfl
@[simp] theorem State.keyDown_setBatchCount (n : Nat) (q : Key) : (s.setBatchCount n).keyDown q = s.keyDown q := rfl

/-! ### setPendingEvents -/

@[simp] theorem State.setPendingEvents_cfg (l : List HostEvent) : (s.setPendingEvents l).cfg = s.cfg := rfl
@[simp] theorem State.setPendingEvents_mem (l : List HostEvent) : (s.setPendingEvents l).mem = s.mem := rfl
@[simp] theorem State.setPendingEvents_v (l : List HostEvent) : (s.setPendingEvents l).v = s.v := rfl
@[simp] theorem State.setPendingEvents_i (l : List HostEvent) : (s.setPendingEvents l).i = s.i := rfl
@[simp] theorem State.setPendingEvents_pc (l : List HostEvent) : (s.setPendingEvents l).pc = s.pc := rfl
@[simp] theorem State.setPendingEvents_stack (l : List HostEvent) : (s.setPendingEvents l).stack = s.stack := rfl
@[simp] theorem State.setPendingEvents_sp (l : List HostEvent) : (s.setPendingEvents l).sp = s.sp := rfl
@[simp] theorem State.setPendingEvents_dt (l : List HostEvent) : (s.setPendingEvents l).dt = s.dt := rfl
@[simp] theorem State.setPendingEvents_st (l : List HostEvent) : (s.setPendingEvents l).st = s.st := rfl
@[simp] theorem State.setPendingEvents_display (l : List HostEvent) : (s.setPendingEvents l).display = s.display := rfl
@[simp] theorem State.setPendingEvents_redrawNeeded (l : List HostEvent) : (s.setPendingEvents l).redrawNeeded = s.redrawNeeded := rfl
@[simp] theorem State.setPendingEvents_keys (l : List HostEvent) : (s.setPendingEvents l).keys = s.keys := rfl
@[simp] theorem State.setPendingEvents_execState (l : List HostEvent) : (s.setPendingEvents l).execState = s.execState := rfl
@[simp] theorem State.setPendingEvents_pendingKey (l : List HostEvent) : (s.setPendingEvents l).pendingKey = s.pendingKey := rfl
@[simp] theorem State.setPendingEvents_batchCount (l : List HostEvent) : (s.setPendingEvents l).batchCount = s.batchCount := rfl
@[simp] theorem State.setPendingEvents_pendingEvents (l : List HostEvent) : (s.setPendingEvents l).pendingEvents = l := rfl
@[simp] theorem State.setPendingEvents_hostInputs (l : List HostEvent) : (s.setPendingEvents l).hostInputs = s.hostInputs := rfl
@[simp] theorem State.setPendingEvents_randDraws (l : List HostEvent) : (s.setPendingEvents l).randDraws = s.randDraws := rfl
@[simp] theorem State.getV_setPendingEvents (l : List HostEvent) (q : Reg) : (s.setPendingEvents l).getV q = s.getV q := rfl
@[simp] theorem State.readByte_setPendingEvents (l : List HostEvent) (x : Nat) : (s.setPendingEvents l).readByte x = s.readByte x := rfl
@[simp] theorem State.keyDown_setPendingEvents (l : List HostEvent) (q : Key) : (s.setPendingEvents l).keyDown q = s.keyDown q := rfl

/-! ### setHostInputs -/

@[simp] theorem State.setHostInputs_cfg (l : List (List HostInput)) : (s.setHostInputs l).cfg = s.cfg := rfl
@[simp] theorem State.setHostInputs_mem (l : List (List HostInput)) : (s.setHostInputs l).mem = s.mem := rfl
@[simp] theorem State.setHostInputs_v (l : List (List HostInput)) : (s.setHostInputs l).v = s.v := rfl
@[simp] theorem State.setHostInputs_i (l : List (List HostInput)) : (s.setHostInputs l).i = s.i := rfl
@[simp] theorem State.setHostInputs_pc (l : List (List HostInput)) : (s.setHostInputs l).pc = s.pc := rfl
@[simp] theorem State.setHostInputs_stack (l : List (List HostInput)) : (s.setHostInputs l).stack = s.stack := rfl
@[simp] theorem State.setHostInputs_sp (l : List (List HostInput)) : (s.setHostInputs l).sp = s.sp := rfl
@[simp] theorem State.setHostInputs_dt (l : List (List HostInput)) : (s.setHostInputs l).dt = s.dt := rfl
@[simp] theorem State.setHostInputs_st (l : List (List HostInput)) : (s.setHostInputs l).st = s.st := rfl
@[simp] theorem State.setHostInputs_display (l : List (List HostInput)) : (s.setHostInputs l).display = s.display := rfl
@[simp] theorem State.setHostInputs_redrawNeeded (l : List (List HostInput)) : (s.setHostInputs l).redrawNeeded = s.redrawNeeded := rfl
@[simp] theorem State.setHostInputs_keys (l : List (List HostInput)) : (s.setHostInputs l).keys = s.keys := rfl
@[simp] theorem State.setHostInputs_execState (l : List (List HostInput)) : (s.setHostInputs l).execState = s.execState := rfl
@[simp] theorem State.setHostInputs_pendingKey (l : List (List HostInput)) : (s.setHostInputs l).pendingKey = s.pendingKey := rfl
@[simp] theorem State.setHostInputs_batchCount (l : List (List HostInput)) : (s.setHostInputs l).batchCount = s.batchCount := rfl
@[simp] theorem State.setHostInputs_pendingEvents (l : List (List HostInput)) : (s.setHostInputs l).pendingEvents = s.pendingEvents := rfl
@[simp] theorem State.setHostInputs_hostInputs (l : List (List HostInput)) : (s.setHostInputs l).hostInputs = l := rfl
@[simp] theorem State.setHostInputs_randDraws (l : List (List HostInput)) : (s.setHostInputs l).randDraws = s.randDraws := rfl
@[simp] theorem State.getV_setHostInputs (l : List (List HostInput)) (q : Reg) : (s.setHostInputs l).getV q = s.getV q := rfl
@[simp] theorem State.readByte_setHostInputs (l : List (List HostInput)) (x : Nat) : (s.setHostInputs l).readByte x = s.readByte x := rfl
@[simp] theorem State.keyDown_setHostInputs (l : List (List HostInput)) (q : Key) : (s.setHostInputs l).keyDown q = s.keyDown q := rfl

/-! ### countDraw -/

@[simp] theorem State.countDraw_cfg : s.countDraw.cfg = s.cfg := rfl
@[simp] theorem State.countDraw_mem : s.countDraw.mem = s.mem := rfl
@[simp] theorem State.countDraw_v : s.countDraw.v = s.v := rfl
@[simp] theorem State.countDraw_i : s.countDraw.i = s.i := rfl
@[simp] theorem State.countDraw_pc : s.countDraw.pc = s.pc := rfl
@[simp] theorem State.countDraw_stack : s.countDraw.stack = s.stack := rfl
@[simp] theorem State.countDraw_sp : s.countDraw.sp = s.sp := rfl
@[simp] theorem State.countDraw_dt : s.countDraw.dt = s.dt := rfl
@[simp] theorem State.countDraw_st : s.countDraw.st = s.st := rfl
@[simp] theorem State.countDraw_display : s.countDraw.display = s.display := rfl
@[simp] theorem State.countDraw_redrawNeeded : s.countDraw.redrawNeeded = s.redrawNeeded := rfl
@[simp] theorem State.countDraw_keys : s.countDraw.keys = s.keys := rfl
@[simp] theorem State.countDraw_execState : s.countDraw.execState = s.execState := rfl
@[simp] theorem State.countDraw_pendingKey : s.countDraw.pendingKey = s.pendingKey := rfl
@[simp] theorem State.countDraw_batchCount : s.countDraw.batchCount = s.batchCount := rfl
@[simp] theorem State.countDraw_pendingEvents : s.countDraw.pendingEvents = s.pendingEvents := rfl
@[simp] theorem State.countDraw_hostInputs : s.countDraw.hostInputs = s.hostInputs := rfl
@[simp] theorem State.countDraw_randDraws : s.countDraw.randDraws = s.randDraws + 1 := rfl
@[simp] theorem State.getV_countDraw (q : Reg) : s.countDraw.getV q = s.getV q := rfl
@[simp] theorem State.readByte_countDraw (x : Nat) : s.countDraw.readByte x = s.readByte x := rfl
@[simp] theorem State.keyDown_countDraw (q : Key) : s.countDraw.keyDown q = s.keyDown q := rfl

/-! ### writeByte -/

@[simp] theorem State.writeByte_cfg (a : Nat) (b : Byte) : (s.writeByte a b).cfg = s.cfg := rfl
@[simp] theorem State.writeByte_mem (a : Nat) (b : Byte) : (s.writeByte a b).mem = Memory.write s.cfg.font s.mem a b := rfl
@[simp] theorem State.writeByte_v (a : Nat) (b : Byte) : (s.writeByte a b).v = s.v := rfl
@[simp] theorem State.writeByte_i (a : Nat) (b : Byte) : (s.writeByte a b).i = s.i := rfl
@[simp] theorem State.writeByte_pc (a : Nat) (b : Byte) : (s.writeByte a b).pc = s.pc := rfl
@[simp] theorem State.writeByte_stack (a : Nat) (b : Byte) : (s.writeByte a b).stack = s.stack := rfl
@[simp] theorem State.writeByte_sp (a : Nat) (b : Byte) : (s.writeByte a b).sp = s.sp := rfl
@[simp] theorem State.writeByte_dt (a : Nat) (b : Byte) : (s.writeByte a b).dt = s.dt := rfl
@[simp] theorem State.writeByte_st (a : Nat) (b : Byte) : (s.writeByte a b).st = s.st := rfl
@[simp] theorem State.writeByte_display (a : Nat) (b : Byte) : (s.writeByte a b).display = s.display := rfl
@[simp] theorem State.writeByte_redrawNeeded (a : Nat) (b : Byte) : (s.writeByte a b).redrawNeeded = s.redrawNeeded := rfl
@[simp] theorem State.writeByte_keys (a : Nat) (b : Byte) : (s.writeByte a b).keys = s.keys := rfl
@[simp] theorem State.writeByte_execState (a : Nat) (b : Byte) : (s.writeByte a b).execState = s.execState := rfl
@[simp] theorem State.writeByte_pendingKey (a : Nat) (b : Byte) : (s.writeByte a b).pendingKey = s.pendingKey := rfl
@[simp] theorem State.writeByte_batchCount (a : Nat) (b : Byte) : (s.writeByte a b).batchCount = s.batchCount := rfl
@[simp] theorem State.writeByte_pendingEvents (a : Nat) (b : Byte) : (s.writeByte a b).pendingEvents = s.pendingEvents := rfl
@[simp] theorem State.writeByte_hostInputs (a : Nat) (b : Byte) : (s.writeByte a b).hostInputs = s.hostInputs := rfl
@[simp] theorem State.writeByte_randDraws (a : Nat) (b : Byte) : (s.writeByte a b).randDraws = s.randDraws := rfl
@[simp] theorem State.getV_writeByte (a : Nat) (b : Byte) (q : Reg) : (s.writeByte a b).getV q = s.getV q := rfl
@[simp] theorem State.keyDown_writeByte (a : Nat) (b : Byte) (q : Key) : (s.writeByte a b).keyDown q = s.keyDown q := rfl

/-! ### Reading back what was written -/

/-- A register reads what was last written to it, and every other register as before (R20). -/
@[simp] theorem State.getV_setV (r q : Reg) (b : Byte) :
    (s.setV r b).getV q = if q = r then b else s.getV q := by
  simp only [State.getV, State.setV, Vector.getElem_set, Fin.ext_iff, eq_comm]

/-- A key reads the level it was last given (R171). -/
@[simp] theorem State.keyDown_setKeys (k : Vector Bool 16) (q : Key) :
    (s.setKeys k).keyDown q = k[q.val] := rfl

/-! ### Moves of pc -/

@[simp] theorem State.advancePc_eq : s.advancePc = s.setPc (s.pc + 2#16) := rfl

@[simp] theorem State.stallPc_eq : s.stallPc = s.setPc (s.pc - 2#16) := rfl

/-- A skip moves pc by 2 or leaves the state alone (R98). -/
theorem State.skipIf_eq (c : Bool) : s.skipIf c = s.setPc (if c then s.pc + 2#16 else s.pc) := by
  cases c <;> rfl

/-! ### The flag clear of 8XY1 to 8XY3 -/

/-- Mode 0 clears VF, mode 1 leaves the state alone (R103). -/
theorem State.clearFlagInOriginal_cases :
    (s.cfg.extMode = .original ∧ s.clearFlagInOriginal = s.setV vF 0#8) ∨
    (s.cfg.extMode = .extended ∧ s.clearFlagInOriginal = s) := by
  unfold State.clearFlagInOriginal
  cases s.cfg.extMode
  · exact .inl ⟨rfl, rfl⟩
  · exact .inr ⟨rfl, rfl⟩

/-! ### Outcomes -/

@[simp] theorem andThen_next (f : State → Result) : andThen (.next s) f = f s := rfl

@[simp] theorem andThen_fault (r : Fault) (f : State → Result) : andThen (.fault r) f = .fault r := rfl

@[simp] theorem andThen_refused (r : Refusal) (f : State → Result) : andThen (.refused r) f = .refused r := rfl

/-- If a sequence answers a next state, so did its first part. -/
theorem andThen_eq_next {o : Result} {f : State → Result} {t : State} (h : andThen o f = .next t) :
    ∃ u, o = .next u ∧ f u = .next t := by
  cases o with
  | next u => exact ⟨u, rfl, h⟩
  | fault r => simp at h
  | refused r => simp at h

@[simp] theorem raise_ne_next (f : Fault) : raise f ≠ .next s := by simp [raise]

end Sys2Proof.Machine
end

