-- ==== Sys2Proof/Laws/Memory.lean ====
section
/-! SUPPORT. The laws of memory: a read after a write, and that every operation keeps the canonical form (R42, R48). -/

namespace Sys2Proof.Machine

/-! ## One listing -/

theorem Memory.lookup_put (m : Memory) (a x : Nat) (b : Byte) :
    Memory.lookup (Memory.put m a b) x = if x = a then some b else Memory.lookup m x := by
  induction m with
  | nil => simp [Memory.put, Memory.lookup, eq_comm]
  | cons c rest ih =>
    obtain ⟨k, d⟩ := c
    simp only [Memory.put]
    split
    · simp [Memory.lookup, eq_comm]
    · split
      · subst_vars
        by_cases hx : x = k <;> simp [Memory.lookup, hx, eq_comm]
      · by_cases hk : k = x
        · have : x ≠ a := by omega
          simp [Memory.lookup, hk, this]
        · simp [Memory.lookup, hk, ih]

theorem Memory.lookup_drop (m : Memory) (a x : Nat) :
    Memory.lookup (Memory.drop m a) x = if x = a then none else Memory.lookup m x := by
  induction m with
  | nil => simp [Memory.drop, Memory.lookup]
  | cons c rest ih =>
    obtain ⟨k, d⟩ := c
    simp only [Memory.drop]
    by_cases hk : k = a
    · rw [if_pos hk, ih]
      by_cases hx : x = a
      · simp [hx]
      · have : k ≠ x := by omega
        simp [Memory.lookup, hx, this]
    · rw [if_neg hk]
      by_cases hkx : k = x
      · have : x ≠ a := by omega
        simp [Memory.lookup, hkx, this]
      · simp [Memory.lookup, hkx, ih]

/-- A read after a write gives the byte written at that address, and what was there before anywhere else (R48). -/
theorem Memory.read_write (font : Vector Byte 80) (m : Memory) (a x : Nat) (b : Byte) :
    Memory.read font (Memory.write font m a b) x = if x = a then b else Memory.read font m x := by
  unfold Memory.write Memory.read
  split
  · rename_i hb
    rw [Memory.lookup_drop]
    by_cases hx : x = a <;> simp [hx, hb]
  · rw [Memory.lookup_put]
    by_cases hx : x = a <;> simp [hx]

/-- A byte of the state after a store (R48). -/
@[simp] theorem State.readByte_writeByte (s : State) (a x : Nat) (b : Byte) :
    (s.writeByte a b).readByte x = if x = a then b else s.readByte x :=
  Memory.read_write s.cfg.font s.mem a x b

/-! ## The canonical form -/

theorem Memory.wfFrom_cons {font : Vector Byte 80} {lo a : Nat} {b : Byte} {rest : Memory} :
    Memory.wfFrom font lo ((a, b) :: rest) = true ↔
      lo ≤ a ∧ a < memSize ∧ b ≠ background font a ∧ Memory.wfFrom font (a + 1) rest = true := by
  simp [Memory.wfFrom, and_assoc]

theorem Memory.wfFrom_mono {font : Vector Byte 80} {m : Memory} {lo lo' : Nat} (h : lo' ≤ lo)
    (hm : Memory.wfFrom font lo m = true) : Memory.wfFrom font lo' m = true := by
  cases m with
  | nil => rfl
  | cons c rest =>
    obtain ⟨a, b⟩ := c
    rw [Memory.wfFrom_cons] at hm ⊢
    exact ⟨h.trans hm.1, hm.2⟩

theorem Memory.wfFrom_put {font : Vector Byte 80} {a : Nat} {b : Byte} (ha : a < memSize)
    (hb : b ≠ background font a) : ∀ {m : Memory} {lo : Nat}, lo ≤ a → Memory.wfFrom font lo m = true →
    Memory.wfFrom font lo (Memory.put m a b) = true
  | [], lo, hlo, _ => Memory.wfFrom_cons.2 ⟨hlo, ha, hb, rfl⟩
  | (k, c) :: rest, lo, hlo, hm => by
    obtain ⟨h1, h2, h3, h4⟩ := Memory.wfFrom_cons.1 hm
    simp only [Memory.put]
    split
    · exact Memory.wfFrom_cons.2 ⟨hlo, ha, hb, Memory.wfFrom_cons.2 ⟨by omega, h2, h3, h4⟩⟩
    · split
      · subst_vars
        exact Memory.wfFrom_cons.2 ⟨hlo, ha, hb, h4⟩
      · exact Memory.wfFrom_cons.2 ⟨h1, h2, h3, Memory.wfFrom_put ha hb (by omega) h4⟩

theorem Memory.wfFrom_drop {font : Vector Byte 80} {a : Nat} : ∀ {m : Memory} {lo : Nat},
    Memory.wfFrom font lo m = true → Memory.wfFrom font lo (Memory.drop m a) = true
  | [], _, _ => rfl
  | (k, c) :: rest, lo, hm => by
    obtain ⟨h1, h2, h3, h4⟩ := Memory.wfFrom_cons.1 hm
    simp only [Memory.drop]
    split
    · exact Memory.wfFrom_mono (by omega) (Memory.wfFrom_drop h4)
    · exact Memory.wfFrom_cons.2 ⟨h1, h2, h3, Memory.wfFrom_drop h4⟩

/-- A store inside memory keeps the canonical form. -/
theorem Memory.wf_write {font : Vector Byte 80} {m : Memory} {a : Nat} (b : Byte) (ha : a < memSize)
    (hm : Memory.wf font m = true) : Memory.wf font (Memory.write font m a b) = true := by
  unfold Memory.write
  split
  · exact Memory.wfFrom_drop hm
  · rename_i hb
    exact Memory.wfFrom_put ha hb (Nat.zero_le a) hm

/-- `writeByte` keeps the canonical form. -/
theorem State.mem_wf_writeByte {s : State} {a : Nat} (b : Byte) (ha : a < memSize)
    (h : Memory.wf s.cfg.font s.mem = true) :
    Memory.wf (s.writeByte a b).cfg.font (s.writeByte a b).mem = true :=
  Memory.wf_write b ha h

/-- The reset memory has the canonical form. -/
theorem State.reset_mem_wf : Memory.wf State.reset.cfg.font State.reset.mem = true := rfl

/-! ## The range check -/

/-- A checked access either raises, because its range leaves memory, or goes on (R45, R153). -/
theorem checkRange_cases (base len : Nat) (k : Result) :
    (len ≠ 0 ∧ 4096 < base + len ∧ checkRange base len k = .fault (.memoryOutOfRange (max base 4096))) ∨
    ((len = 0 ∨ base + len ≤ 4096) ∧ checkRange base len k = k) := by
  unfold checkRange memSize
  by_cases h : 0 < len ∧ 4096 < base + len
  · exact .inl ⟨by omega, h.2, by rw [if_pos h]; rfl⟩
  · exact .inr ⟨by omega, by rw [if_neg h]⟩

/-- If a checked access answers a next state, its range lies in memory (R45). -/
theorem checkRange_eq_next {base len : Nat} {k : Result} {t : State} (h : checkRange base len k = .next t) :
    (len = 0 ∨ base + len ≤ 4096) ∧ k = .next t := by
  rcases checkRange_cases base len k with ⟨-, -, hf⟩ | ⟨hr, hk⟩
  · rw [hf] at h; cases h
  · exact ⟨hr, hk ▸ h⟩

/-- A checked access inside memory goes on (R45). -/
theorem checkRange_inside {base len : Nat} (k : Result) (h : base + len ≤ 4096) : checkRange base len k = k := by
  rcases checkRange_cases base len k with ⟨-, hb, -⟩ | ⟨-, hk⟩
  · omega
  · exact hk

/-! ## Runs of registers to and from memory -/

/-- A property that every byte store inside memory keeps is kept by a run of stores (R124). -/
theorem storeRegs_induct {P : State → Prop} {base : Nat} {lim : Nat}
    (hw : ∀ s a b, a < lim → P s → P (s.writeByte a b)) :
    ∀ (rs : List Reg) (s : State), (∀ r ∈ rs, base + r.val < lim) → P s → P (storeRegs base rs s)
  | [], _, _, hs => hs
  | r :: rs, s, hr, hs =>
    storeRegs_induct hw rs _ (fun q hq => hr q (List.mem_cons_of_mem r hq))
      (hw s _ _ (hr r List.mem_cons_self) hs)

/-- A run of stores changes nothing but memory (R124). -/
theorem storeRegs_eq (base : Nat) : ∀ (rs : List Reg) (s : State),
    storeRegs base rs s = { s with mem := (storeRegs base rs s).mem }
  | [], _ => rfl
  | r :: rs, s => by
    have h := storeRegs_eq base rs (s.writeByte (base + r.val) (s.getV r))
    simp only [storeRegs]
    rw [h]
    rfl

/-- A run of loads changes nothing but the registers (R125). -/
theorem loadRegs_eq (base : Nat) : ∀ (rs : List Reg) (s : State),
    loadRegs base rs s = { s with v := (loadRegs base rs s).v }
  | [], _ => rfl
  | r :: rs, s => by
    have h := loadRegs_eq base rs (s.setV r (s.readByte (base + r.val)))
    simp only [loadRegs]
    rw [h]
    rfl

/-- What a run of loads leaves in each register (R125). -/
theorem loadRegs_getV (base : Nat) : ∀ (rs : List Reg) (s : State) (q : Reg),
    (loadRegs base rs s).getV q = if q ∈ rs then s.readByte (base + q.val) else s.getV q
  | [], _, _ => by simp [loadRegs]
  | r :: rs, s, q => by
    simp only [loadRegs, loadRegs_getV base rs, State.readByte_setV, State.getV_setV, List.mem_cons]
    by_cases hq : q ∈ rs
    · simp [hq]
    · by_cases hr : q = r <;> simp [hq, hr]

/-- What a run of stores leaves in each byte (R124). -/
theorem storeRegs_readByte (base : Nat) : ∀ (rs : List Reg) (s : State) (a : Nat),
    (storeRegs base rs s).readByte a =
      if h : base ≤ a ∧ ∃ r ∈ rs, base + r.val = a then s.getV ⟨(a - base) % 16, by omega⟩ else s.readByte a
  | [], _, _ => by simp [storeRegs]
  | r :: rs, s, a => by
    simp only [storeRegs, storeRegs_readByte base rs, State.getV_writeByte, State.readByte_writeByte]
    by_cases hrs : ∃ q ∈ rs, base + q.val = a
    · obtain ⟨q, hq, rfl⟩ := hrs
      have h1 : ∃ p ∈ rs, base + p.val = base + q.val := ⟨q, hq, rfl⟩
      have h2 : ∃ p ∈ r :: rs, base + p.val = base + q.val := ⟨q, List.mem_cons_of_mem r hq, rfl⟩
      simp only [Nat.le_add_right, true_and, h1, h2, dite_true]
    · by_cases hr : a = base + r.val
      · subst hr
        have h2 : ∃ p ∈ r :: rs, base + p.val = base + r.val := ⟨r, List.mem_cons_self, rfl⟩
        have hidx : (⟨(base + r.val - base) % 16, by omega⟩ : Reg) = r := by
          ext; simp [Nat.mod_eq_of_lt r.isLt]
        simp only [hrs, and_false, dite_false, if_true, Nat.le_add_right, true_and, h2, dite_true, hidx]
      · have h2 : ¬ ∃ p ∈ r :: rs, base + p.val = a := by
          rintro ⟨p, hp, rfl⟩
          rcases List.mem_cons.1 hp with rfl | hp
          · exact hr rfl
          · exact hrs ⟨p, hp, rfl⟩
        simp only [hrs, and_false, dite_false, hr, if_false, h2]

/-- The registers FX55 and FX65 move are exactly V[0] .. V[x] (R20). -/
theorem mem_regsUpTo (x q : Reg) : q ∈ regsUpTo x ↔ q.val ≤ x.val := by
  revert x q; decide

end Sys2Proof.Machine
end

