-- ==== Sys2Proof/Laws/Display.lean ====
section
/-! SUPPORT. The laws of display cells (R27) and what drawing keeps (R81). -/

namespace Sys2Proof.Machine

/-- A display of `h` rows of `w` cells (R27). -/
def Display.Rect (w h : Nat) (d : Display) : Prop :=
  d.length = h ∧ ∀ row ∈ d, row.length = w

/-- The cell (x, y) exists in the buffer. -/
def Display.inside (d : Display) (x y : Nat) : Prop :=
  ∃ row, d[y]? = some row ∧ x < row.length

theorem Display.Rect.inside {w h : Nat} {d : Display} (hd : d.Rect w h) {x y : Nat} (hx : x < w) (hy : y < h) :
    d.inside x y := by
  obtain ⟨hl, hr⟩ := hd
  have hy' : y < d.length := hl ▸ hy
  exact ⟨d[y], List.getElem?_eq_getElem hy', by rw [hr _ (List.getElem_mem hy')]; exact hx⟩

/-- A blank display has its shape and no lit cell (R35, R80). -/
theorem blankDisplay_rect (w h : Nat) : (blankDisplay w h).Rect w h := by
  refine ⟨List.length_replicate, fun row hrow => ?_⟩
  rw [List.eq_of_mem_replicate hrow, List.length_replicate]

@[simp] theorem cell_blankDisplay (w h x y : Nat) : (blankDisplay w h).cell x y = false := by
  simp only [Display.cell, blankDisplay, List.getElem?_replicate]
  split
  · simp only [Option.getD_some, List.getElem?_replicate]
    split <;> rfl
  · rfl

/-- The buffer outside its edges reads as unlit. -/
theorem cell_of_not_inside {d : Display} {x y : Nat} (h : ¬ d.inside x y) : d.cell x y = false := by
  unfold Display.cell
  cases hr : d[y]? with
  | none => rfl
  | some row =>
    have hx : row.length ≤ x := by
      by_contra hlt
      exact h ⟨row, hr, by omega⟩
    simp [List.getElem?_eq_none hx]

/-- Inverting one cell: that cell, if it exists, is inverted and every other cell is as before (R81). -/
theorem cell_flip_same {d : Display} {x y : Nat} (h : d.inside x y) : (d.flip x y).cell x y = !d.cell x y := by
  obtain ⟨row, hr, hx⟩ := h
  simp [Display.cell, Display.flip, hr, List.getElem?_eq_getElem hx]

theorem cell_flip_other (d : Display) {x y x' y' : Nat} (h : ¬ (x' = x ∧ y' = y)) :
    (d.flip x y).cell x' y' = d.cell x' y' := by
  unfold Display.cell Display.flip
  rw [List.getElem?_modify]
  cases hr : d[y']? with
  | none => simp
  | some row =>
    by_cases hy : y = y'
    · subst hy
      have hx : x ≠ x' := fun e => h ⟨e.symm, rfl⟩
      simp [hx]
    · simp [hy]

/-- Inverting a cell keeps the shape (R27). -/
theorem Display.Rect.flip {w h : Nat} {d : Display} (hd : d.Rect w h) (x y : Nat) : (d.flip x y).Rect w h := by
  refine ⟨by simp [Display.flip, hd.1], fun row hrow => ?_⟩
  obtain ⟨j, hj, rfl⟩ := List.getElem_of_mem hrow
  have hj' : j < d.length := by simpa [Display.flip] using hj
  simp only [Display.flip, List.getElem_modify]
  split
  · rw [List.length_modify]; exact hd.2 _ (List.getElem_mem hj')
  · exact hd.2 _ (List.getElem_mem hj')

/-- A property of the drawing that every plotted bit keeps is kept by a row (R81). -/
theorem bits_induct {P : Blit → Prop} {w x0 y : Nat} (b : Byte)
    (hp : ∀ p x, x0 ≤ x → x < x0 + 8 → x < w → P p → P (p.plot x y)) :
    ∀ (k : Nat) (p : Blit), k ≤ 8 → P p → P (Blit.bits w x0 y b k p)
  | 0, _, _, h => h
  | k + 1, p, hk, h => by
    unfold Blit.bits
    split
    · exact h
    · refine bits_induct b hp k _ (by omega) ?_
      split
      · exact hp _ _ (by omega) (by omega) (by omega) h
      · exact h

/-- A property of the drawing that every plotted bit keeps is kept by the whole sprite (R81). -/
theorem rows_induct {P : Blit → Prop} {w h x0 y0 : Nat} (row : Nat → Byte)
    (hp : ∀ p x y, x0 ≤ x → x < x0 + 8 → x < w → y0 ≤ y → y < h → P p → P (p.plot x y)) :
    ∀ (k r : Nat) (p : Blit), P p → P (Blit.rows w h x0 y0 row k r p)
  | 0, _, _, hP => hP
  | k + 1, r, p, hP => by
    unfold Blit.rows
    split
    · exact hP
    · refine rows_induct row hp k (r + 1) _ ?_
      exact bits_induct (row r) (fun q x h1 h2 h3 hq => hp q x _ h1 h2 h3 (by omega) (by omega) hq) 8 p
        (Nat.le_refl 8) hP

/-- Drawing keeps the shape of the display (R27, R81). -/
theorem drawSprite_rect {w h : Nat} {d : Display} (hd : d.Rect w h) (W H x0 y0 : Nat) (row : Nat → Byte) (n : Nat) :
    (drawSprite d W H x0 y0 row n).display.Rect w h :=
  rows_induct (P := fun p => p.display.Rect w h) row (fun _ x y _ _ _ _ _ hp => hp.flip x y) n 0 _ hd

end Sys2Proof.Machine
end

