-- ==== Sys2Proof/Laws/Encoding.lean ====
section
/-! SUPPORT. The fields of an encoded opcode, format by format (R61, R62), and the opcode rebuilt from its fields. -/

namespace Sys2Proof

/-! ## The literal nibbles of a format survive the row's mask (R64) -/

theorem nibbleBits_and_ones (c : Fin 16) : nibbleBits c &&& 0xF#4 = nibbleBits c := BitVec.and_allOnes

theorem twoNibbles_and_high (c x : Fin 16) :
    (nibbleBits c ++ nibbleBits x) &&& 0xF0#8 = nibbleBits c ++ nibbleBits 0 := by
  revert c x; decide

theorem classNibble_and (c n : Fin 16) : ofNibbles c 0 0 n &&& 0xF000#16 = ofNibbles c 0 0 0 := by
  revert c n; decide

/-- Format NNN: mask F000 keeps the class nibble. -/
theorem encodeNNN_and (c : Fin 16) (nnn : Addr12) : encodeNNN c nnn &&& 0xF000#16 = encodeNNN c 0#12 := by
  have h : encodeNNN c nnn &&& (0xF#4 ++ 0#12) = (nibbleBits c &&& 0xF#4) ++ (nnn &&& 0#12) := BitVec.and_append
  rw [nibbleBits_and_ones, BitVec.and_zero] at h
  exact h

/-- Format XNN: mask F000 keeps the class nibble. -/
theorem encodeXNN_and (c : Fin 16) (x : Reg) (nn : Byte) : encodeXNN c x nn &&& 0xF000#16 = encodeXNN c 0 0#8 := by
  have h : encodeXNN c x nn &&& (0xF0#8 ++ 0#8) = ((nibbleBits c ++ nibbleBits x) &&& 0xF0#8) ++ (nn &&& 0#8) :=
    BitVec.and_append
  rw [twoNibbles_and_high, BitVec.and_zero] at h
  exact h

/-- Format X: mask F0FF keeps the class nibble and the low byte. -/
theorem encodeX_and (c : Fin 16) (x : Reg) (nn : Byte) : encodeXNN c x nn &&& 0xF0FF#16 = encodeXNN c 0 nn := by
  have h : encodeXNN c x nn &&& (0xF0#8 ++ 0xFF#8) = ((nibbleBits c ++ nibbleBits x) &&& 0xF0#8) ++ (nn &&& 0xFF#8) :=
    BitVec.and_append
  have hn : nn &&& 0xFF#8 = nn := BitVec.and_allOnes
  rw [twoNibbles_and_high, hn] at h
  exact h

/-- Format XY: mask F00F keeps the class nibble and the low nibble. -/
theorem ofNibbles_and_XY (c x y n : Fin 16) : ofNibbles c x y n &&& 0xF00F#16 = ofNibbles c 0 0 n := by
  have h : ofNibbles c x y n &&& (0xF00#12 ++ 0xF#4) =
      ((nibbleBits c ++ nibbleBits x ++ nibbleBits y) &&& 0xF00#12) ++ (nibbleBits n &&& 0xF#4) := BitVec.and_append
  have h2 : (nibbleBits c ++ nibbleBits x ++ nibbleBits y) &&& (0xF0#8 ++ 0#4) =
      ((nibbleBits c ++ nibbleBits x) &&& 0xF0#8) ++ (nibbleBits y &&& 0#4) := BitVec.and_append
  rw [twoNibbles_and_high, BitVec.and_zero] at h2
  rw [show (0xF00#12 : BitVec 12) = 0xF0#8 ++ 0#4 from rfl, h2, nibbleBits_and_ones] at h
  exact h

/-- Format XYN: mask F000 keeps the class nibble. -/
theorem ofNibbles_and_XYN (c x y n : Fin 16) : ofNibbles c x y n &&& 0xF000#16 = ofNibbles c 0 0 0 := by
  have h := congrArg (· &&& 0xF000#16) (ofNibbles_and_XY c x y n)
  simp only [BitVec.and_assoc] at h
  rw [show (0xF00F#16 &&& 0xF000#16 : Word) = 0xF000#16 from rfl] at h
  rw [h]
  exact classNibble_and c n

/-! ## The fields of an encoded opcode (R61) -/

theorem nibbleAt_ofNibbles (c x y n : Fin 16) :
    nibbleAt (ofNibbles c x y n) 12 = c ∧ nibbleAt (ofNibbles c x y n) 8 = x ∧
    nibbleAt (ofNibbles c x y n) 4 = y ∧ nibbleAt (ofNibbles c x y n) 0 = n := by
  have e0 : (ofNibbles c x y n).extractLsb' 0 4 = nibbleBits n := BitVec.extractLsb'_append_eq_right
  have e4 : (ofNibbles c x y n).extractLsb' 4 4 = nibbleBits y :=
    (BitVec.extractLsb'_append_eq_of_le (by decide)).trans BitVec.extractLsb'_append_eq_right
  have e8 : (ofNibbles c x y n).extractLsb' 8 4 = nibbleBits x :=
    ((BitVec.extractLsb'_append_eq_of_le (by decide)).trans (BitVec.extractLsb'_append_eq_of_le (by decide))).trans
      BitVec.extractLsb'_append_eq_right
  have e12 : (ofNibbles c x y n).extractLsb' 12 4 = nibbleBits c :=
    ((BitVec.extractLsb'_append_eq_of_le (by decide)).trans (BitVec.extractLsb'_append_eq_of_le (by decide))).trans
      BitVec.extractLsb'_append_eq_left
  simp only [nibbleAt, e0, e4, e8, e12]
  exact ⟨rfl, rfl, rfl, rfl⟩

theorem fields_encodeXNN (c : Fin 16) (x : Reg) (nn : Byte) :
    (fieldsOf (encodeXNN c x nn)).cls = c ∧ (fieldsOf (encodeXNN c x nn)).x = x ∧
    (fieldsOf (encodeXNN c x nn)).nn = nn := by
  have e0 : (encodeXNN c x nn).extractLsb' 0 8 = nn := BitVec.extractLsb'_append_eq_right
  have e8 : (encodeXNN c x nn).extractLsb' 8 4 = nibbleBits x :=
    (BitVec.extractLsb'_append_eq_of_le (by decide)).trans BitVec.extractLsb'_append_eq_right
  have e12 : (encodeXNN c x nn).extractLsb' 12 4 = nibbleBits c :=
    (BitVec.extractLsb'_append_eq_of_le (by decide)).trans BitVec.extractLsb'_append_eq_left
  simp only [fieldsOf, nibbleAt, e0, e8, e12]
  exact ⟨rfl, rfl, trivial⟩

theorem fields_encodeNNN (c : Fin 16) (nnn : Addr12) :
    (fieldsOf (encodeNNN c nnn)).cls = c ∧ (fieldsOf (encodeNNN c nnn)).nnn = nnn := by
  have e0 : (encodeNNN c nnn).extractLsb' 0 12 = nnn := BitVec.extractLsb'_append_eq_right
  have e12 : (encodeNNN c nnn).extractLsb' 12 4 = nibbleBits c := BitVec.extractLsb'_append_eq_left
  simp only [fieldsOf, nibbleAt, e0, e12]
  exact ⟨rfl, trivial⟩

/-- Every opcode is the four nibbles its fields name (R61). -/
theorem ofNibbles_fields (w : Word) :
    ofNibbles (fieldsOf w).cls (fieldsOf w).x (fieldsOf w).y (fieldsOf w).n = w := by
  have h1 : w.extractLsb' 12 4 ++ w.extractLsb' 8 4 = w.extractLsb' 8 8 :=
    BitVec.extractLsb'_append_extractLsb'_eq_extractLsb' rfl
  have h2 : w.extractLsb' 8 8 ++ w.extractLsb' 4 4 = w.extractLsb' 4 12 :=
    BitVec.extractLsb'_append_extractLsb'_eq_extractLsb' rfl
  have h3 : w.extractLsb' 4 12 ++ w.extractLsb' 0 4 = w.extractLsb' 0 16 :=
    BitVec.extractLsb'_append_extractLsb'_eq_extractLsb' rfl
  have h4 : w.extractLsb' 0 16 = w := BitVec.extractLsb'_eq_self
  show w.extractLsb' 12 4 ++ w.extractLsb' 8 4 ++ w.extractLsb' 4 4 ++ w.extractLsb' 0 4 = w
  rw [h1, h2, h3, h4]

/-- The overlap of the fields: NN = {Y, N} (R61). -/
theorem fields_nn (w : Word) : (fieldsOf w).nn = nibbleBits (fieldsOf w).y ++ nibbleBits (fieldsOf w).n :=
  (BitVec.extractLsb'_append_extractLsb'_eq_extractLsb' (x := w) (start₁ := 0) (len₁ := 4) (len₂ := 4) rfl).symm

/-- The overlap of the fields: NNN = {X, NN} (R61). -/
theorem fields_nnn (w : Word) : (fieldsOf w).nnn = nibbleBits (fieldsOf w).x ++ (fieldsOf w).nn :=
  (BitVec.extractLsb'_append_extractLsb'_eq_extractLsb' (x := w) (start₁ := 0) (len₁ := 8) (len₂ := 4) rfl).symm

/-- The opcode in the form of the formats XNN and X. -/
theorem encodeXNN_fields (w : Word) : encodeXNN (fieldsOf w).cls (fieldsOf w).x (fieldsOf w).nn = w := by
  have h1 : w.extractLsb' 12 4 ++ w.extractLsb' 8 4 = w.extractLsb' 8 8 :=
    BitVec.extractLsb'_append_extractLsb'_eq_extractLsb' rfl
  have h2 : w.extractLsb' 8 8 ++ w.extractLsb' 0 8 = w.extractLsb' 0 16 :=
    BitVec.extractLsb'_append_extractLsb'_eq_extractLsb' rfl
  show w.extractLsb' 12 4 ++ w.extractLsb' 8 4 ++ w.extractLsb' 0 8 = w
  rw [h1, h2]
  exact BitVec.extractLsb'_eq_self

/-- The opcode in the form of the format NNN. -/
theorem encodeNNN_fields (w : Word) : encodeNNN (fieldsOf w).cls (fieldsOf w).nnn = w := by
  have h1 : w.extractLsb' 12 4 ++ w.extractLsb' 0 12 = w.extractLsb' 0 16 :=
    BitVec.extractLsb'_append_extractLsb'_eq_extractLsb' rfl
  show w.extractLsb' 12 4 ++ w.extractLsb' 0 12 = w
  rw [h1]
  exact BitVec.extractLsb'_eq_self

/-- An opcode laid out in memory's byte order reads back as itself (R43). -/
theorem bigEndian_opcodeBytes (w : Word) : bigEndian (w.extractLsb' 8 8) (w.extractLsb' 0 8) = w := by
  have h : w.extractLsb' 8 8 ++ w.extractLsb' 0 8 = w.extractLsb' 0 16 :=
    BitVec.extractLsb'_append_extractLsb'_eq_extractLsb' rfl
  show w.extractLsb' 8 8 ++ w.extractLsb' 0 8 = w
  rw [h]
  exact BitVec.extractLsb'_eq_self

end Sys2Proof
end

