-- ==== Sys2Proof/Laws/Load.lean ====
section
/-! SUPPORT. What copying the ROM into memory does, said once (R47). -/

namespace Sys2Proof.Machine

/-- Copying bytes changes memory and nothing else (R47). -/
theorem copyBytes_eq : ∀ (bs : List Byte) (a : Nat) (s : State), copyBytes a bs s = { s with mem := (copyBytes a bs s).mem }
  | [], _, _ => rfl
  | b :: bs, a, s => by
    have ih := copyBytes_eq bs (a + 1) (s.writeByte a b)
    simp only [copyBytes]
    rw [ih]
    rfl

/-- The copied bytes stand at ascending addresses from `a`; every other address reads as before (R47). -/
theorem copyBytes_readByte : ∀ (bs : List Byte) (a : Nat) (s : State) (q : Nat),
    (copyBytes a bs s).readByte q = if h : a ≤ q ∧ q < a + bs.length then bs[q - a] else s.readByte q
  | [], a, s, q => by
    rw [dif_neg (by simp)]
    rfl
  | b :: bs, a, s, q => by
    simp only [copyBytes, copyBytes_readByte bs]
    by_cases here : q = a
    · subst here
      simp
    · by_cases later : a + 1 ≤ q ∧ q < a + 1 + bs.length
      · have hq : q - a = (q - (a + 1)) + 1 := by omega
        rw [dif_pos later, dif_pos (by simp only [List.length_cons]; omega)]
        simp [hq]
      · rw [dif_neg later, dif_neg (by simp only [List.length_cons]; omega)]
        simp [here]

/-- Copying inside memory keeps the canonical form (R40, R47). -/
theorem copyBytes_mem_wf : ∀ (bs : List Byte) (a : Nat) (s : State), a + bs.length ≤ memSize →
    Memory.wf s.cfg.font s.mem = true → Memory.wf (copyBytes a bs s).cfg.font (copyBytes a bs s).mem = true
  | [], _, _, _, h => h
  | b :: bs, a, s, hlen, h => by
    simp only [List.length_cons] at hlen
    exact copyBytes_mem_wf bs (a + 1) (s.writeByte a b) (by omega) (State.mem_wf_writeByte b (by omega) h)

end Sys2Proof.Machine
end

