-- ==== Sys2Proof/Laws/PerInstr.lean ====
section
/-! SUPPORT. The per-instruction family EncodesRow: the opcode of an instruction is admitted by the row of the opcode map
that carries its mnemonic (R64, R65). -/

namespace Sys2Proof.Laws.EncodesRow

/-- Every row with the instruction's mnemonic admits its opcode. -/
def Statement (i : Instr) : Prop :=
  ∀ r ∈ opcodeRows, r.mnemonic = mnemonicOf i → r.admits (encode i) = true

/-- A row's admission of an opcode, as its mask equation. -/
theorem admits_iff (r : OpcodeRow) (w : Word) : r.admits w = true ↔ w &&& r.mask = r.value := by
  simp [OpcodeRow.admits]

/-- Only one row carries a mnemonic, so the family's statement is one mask equation. -/
theorem of_row {i : Instr} (m : String) (mask value : Word) (hm : mnemonicOf i = m)
    (hone : (opcodeRows.all fun r => r.mnemonic != m || (r.mask == mask && r.value == value)) = true)
    (h : encode i &&& mask = value) : Statement i := by
  intro r hr hrm
  have hr' := List.all_eq_true.1 hone r hr
  rw [hrm, hm] at hr'
  simp only [bne_self_eq_false, Bool.false_or, Bool.and_eq_true, beq_iff_eq] at hr'
  rw [admits_iff, hr'.1, hr'.2]
  exact h

theorem cls : Statement .cls :=
  of_row "CLS" 0xFFFF#16 0x00E0#16 rfl (by decide) (by decide)

theorem ret : Statement .ret :=
  of_row "RET" 0xFFFF#16 0x00EE#16 rfl (by decide) (by decide)

theorem jp (nnn : Addr12) : Statement (.jp nnn) :=
  of_row "JP" 0xF000#16 0x1000#16 rfl (by decide) ((encodeNNN_and _ _).trans (by decide))

theorem call (nnn : Addr12) : Statement (.call nnn) :=
  of_row "CALL" 0xF000#16 0x2000#16 rfl (by decide) ((encodeNNN_and _ _).trans (by decide))

theorem seI (x : Reg) (nn : Byte) : Statement (.seI x nn) :=
  of_row "SE.I" 0xF000#16 0x3000#16 rfl (by decide) ((encodeXNN_and _ _ _).trans (by decide))

theorem sneI (x : Reg) (nn : Byte) : Statement (.sneI x nn) :=
  of_row "SNE.I" 0xF000#16 0x4000#16 rfl (by decide) ((encodeXNN_and _ _ _).trans (by decide))

theorem seR (x : Reg) (y : Reg) : Statement (.seR x y) :=
  of_row "SE.R" 0xF00F#16 0x5000#16 rfl (by decide) ((ofNibbles_and_XY _ _ _ _).trans (by decide))

theorem ldI (x : Reg) (nn : Byte) : Statement (.ldI x nn) :=
  of_row "LD.I" 0xF000#16 0x6000#16 rfl (by decide) ((encodeXNN_and _ _ _).trans (by decide))

theorem addI (x : Reg) (nn : Byte) : Statement (.addI x nn) :=
  of_row "ADD.I" 0xF000#16 0x7000#16 rfl (by decide) ((encodeXNN_and _ _ _).trans (by decide))

theorem ldR (x : Reg) (y : Reg) : Statement (.ldR x y) :=
  of_row "LD.R" 0xF00F#16 0x8000#16 rfl (by decide) ((ofNibbles_and_XY _ _ _ _).trans (by decide))

theorem or (x : Reg) (y : Reg) : Statement (.or x y) :=
  of_row "OR" 0xF00F#16 0x8001#16 rfl (by decide) ((ofNibbles_and_XY _ _ _ _).trans (by decide))

theorem and (x : Reg) (y : Reg) : Statement (.and x y) :=
  of_row "AND" 0xF00F#16 0x8002#16 rfl (by decide) ((ofNibbles_and_XY _ _ _ _).trans (by decide))

theorem xor (x : Reg) (y : Reg) : Statement (.xor x y) :=
  of_row "XOR" 0xF00F#16 0x8003#16 rfl (by decide) ((ofNibbles_and_XY _ _ _ _).trans (by decide))

theorem addR (x : Reg) (y : Reg) : Statement (.addR x y) :=
  of_row "ADD.R" 0xF00F#16 0x8004#16 rfl (by decide) ((ofNibbles_and_XY _ _ _ _).trans (by decide))

theorem sub (x : Reg) (y : Reg) : Statement (.sub x y) :=
  of_row "SUB" 0xF00F#16 0x8005#16 rfl (by decide) ((ofNibbles_and_XY _ _ _ _).trans (by decide))

theorem shr (x : Reg) (y : Reg) : Statement (.shr x y) :=
  of_row "SHR" 0xF00F#16 0x8006#16 rfl (by decide) ((ofNibbles_and_XY _ _ _ _).trans (by decide))

theorem subn (x : Reg) (y : Reg) : Statement (.subn x y) :=
  of_row "SUBN" 0xF00F#16 0x8007#16 rfl (by decide) ((ofNibbles_and_XY _ _ _ _).trans (by decide))

theorem shl (x : Reg) (y : Reg) : Statement (.shl x y) :=
  of_row "SHL" 0xF00F#16 0x800E#16 rfl (by decide) ((ofNibbles_and_XY _ _ _ _).trans (by decide))

theorem sneR (x : Reg) (y : Reg) : Statement (.sneR x y) :=
  of_row "SNE.R" 0xF00F#16 0x9000#16 rfl (by decide) ((ofNibbles_and_XY _ _ _ _).trans (by decide))

theorem ldA (nnn : Addr12) : Statement (.ldA nnn) :=
  of_row "LD.A" 0xF000#16 0xA000#16 rfl (by decide) ((encodeNNN_and _ _).trans (by decide))

theorem jpV0 (nnn : Addr12) : Statement (.jpV0 nnn) :=
  of_row "JP.V0" 0xF000#16 0xB000#16 rfl (by decide) ((encodeNNN_and _ _).trans (by decide))

theorem rnd (x : Reg) (nn : Byte) : Statement (.rnd x nn) :=
  of_row "RND" 0xF000#16 0xC000#16 rfl (by decide) ((encodeXNN_and _ _ _).trans (by decide))

theorem drw (x : Reg) (y : Reg) (n : Fin 16) : Statement (.drw x y n) :=
  of_row "DRW" 0xF000#16 0xD000#16 rfl (by decide) ((ofNibbles_and_XYN _ _ _ _).trans (by decide))

theorem skp (x : Reg) : Statement (.skp x) :=
  of_row "SKP" 0xF0FF#16 0xE09E#16 rfl (by decide) ((encodeX_and _ _ _).trans (by decide))

theorem sknp (x : Reg) : Statement (.sknp x) :=
  of_row "SKNP" 0xF0FF#16 0xE0A1#16 rfl (by decide) ((encodeX_and _ _ _).trans (by decide))

theorem ldDt (x : Reg) : Statement (.ldDt x) :=
  of_row "LD.DT" 0xF0FF#16 0xF007#16 rfl (by decide) ((encodeX_and _ _ _).trans (by decide))

theorem ldK (x : Reg) : Statement (.ldK x) :=
  of_row "LD.K" 0xF0FF#16 0xF00A#16 rfl (by decide) ((encodeX_and _ _ _).trans (by decide))

theorem stDt (x : Reg) : Statement (.stDt x) :=
  of_row "ST.DT" 0xF0FF#16 0xF015#16 rfl (by decide) ((encodeX_and _ _ _).trans (by decide))

theorem stSt (x : Reg) : Statement (.stSt x) :=
  of_row "ST.ST" 0xF0FF#16 0xF018#16 rfl (by decide) ((encodeX_and _ _ _).trans (by decide))

theorem addA (x : Reg) : Statement (.addA x) :=
  of_row "ADD.A" 0xF0FF#16 0xF01E#16 rfl (by decide) ((encodeX_and _ _ _).trans (by decide))

theorem ldF (x : Reg) : Statement (.ldF x) :=
  of_row "LD.F" 0xF0FF#16 0xF029#16 rfl (by decide) ((encodeX_and _ _ _).trans (by decide))

theorem bcd (x : Reg) : Statement (.bcd x) :=
  of_row "BCD" 0xF0FF#16 0xF033#16 rfl (by decide) ((encodeX_and _ _ _).trans (by decide))

theorem stm (x : Reg) : Statement (.stm x) :=
  of_row "STM" 0xF0FF#16 0xF055#16 rfl (by decide) ((encodeX_and _ _ _).trans (by decide))

theorem ldm (x : Reg) : Statement (.ldm x) :=
  of_row "LDM" 0xF0FF#16 0xF065#16 rfl (by decide) ((encodeX_and _ _ _).trans (by decide))

theorem nopU (w : Word) : Statement (.nopU w) :=
  of_row "NOP.U" 0x0000#16 0x0000#16 rfl (by decide) (by simp)

end Sys2Proof.Laws.EncodesRow
end

