-- ==== Sys2Proof/Laws/Scheduler.lean ====
section
/-! SUPPORT. What the shared operations over the stack, the keys and the scheduler can do, each said once; and the one
inversion of a step (R17, R24, R63, R167, R168). -/

namespace Sys2Proof.Machine

/-! ## Stack and keys -/

/-- The stack array has room for every capacity (R10, R24). -/
theorem StackCapacity.toNat_le (c : StackCapacity) : 12 ≤ c.toNat ∧ c.toNat ≤ 16 := by
  cases c <;> decide

/-- A push either overflows or stores at sp (R24, R92). -/
theorem State.push_cases (s : State) (w : Word) :
    (s.cfg.stackCapacity.toNat ≤ s.sp.val ∧ s.push w = .fault .stackOverflow) ∨
    (∃ (h : s.sp.val < 16), s.sp.val < s.cfg.stackCapacity.toNat ∧
      s.push w = .next { s with stack := s.stack.set s.sp.val w h, sp := ⟨s.sp.val + 1, by omega⟩ }) := by
  have hc := StackCapacity.toNat_le s.cfg.stackCapacity
  unfold State.push
  split
  · rename_i h
    exact .inr ⟨h.2, h.1, rfl⟩
  · exact .inl ⟨by omega, rfl⟩

/-- A pop either underflows or takes the top entry into pc (R24, R90). -/
theorem State.popPc_cases (s : State) :
    (s.sp.val = 0 ∧ s.popPc = .fault .stackUnderflow) ∨
    (∃ (h : s.sp.val - 1 < 16), s.sp.val ≠ 0 ∧
      s.popPc = .next { s with sp := ⟨s.sp.val - 1, by omega⟩, pc := s.stack[s.sp.val - 1] }) := by
  unfold State.popPc
  split
  · exact .inl ⟨by assumption, rfl⟩
  · exact .inr ⟨by omega, by assumption, rfl⟩

/-- A key operand either names one of the sixteen keys or raises (R131, R155). -/
theorem withKey_cases (b : Byte) (k : Key → Result) :
    (15 < b.toNat ∧ withKey b k = .fault (.keyIndexOutOfRange b.toNat)) ∨
    (∃ h : b.toNat < 16, withKey b k = k ⟨b.toNat, h⟩) := by
  unfold withKey
  split
  · exact .inr ⟨by assumption, rfl⟩
  · exact .inl ⟨by omega, rfl⟩

/-! ## Host events -/

/-- Acting on events sets the execution-state tag and nothing else (R168). -/
theorem actOn_sets : ∀ (es : List HostEvent) (s : State), ∃ e, actOn es s = s.setExecState e
  | [], s => ⟨s.execState, by cases s; rfl⟩
  | e :: es, s => by
    obtain ⟨f, hf⟩ := actOn_sets es (s.setExecState (ExecState.after e s.execState))
    exact ⟨f, by simp only [actOn, hf]; rfl⟩

theorem actOn_eq (es : List HostEvent) (s : State) : actOn es s = s.setExecState (actOn es s).execState := by
  obtain ⟨e, he⟩ := actOn_sets es s
  rw [he]
  rfl

/-- `Quit` is terminal under every list of events (R168). -/
theorem actOn_quit : ∀ (es : List HostEvent) (s : State), s.execState = .quit → (actOn es s).execState = .quit
  | [], _, h => h
  | e :: es, s, h => actOn_quit es _ (by cases e <;> simp [ExecState.after, h])

/-- A `keys(k)` step sets the sixteen levels (R171). -/
@[simp] theorem arrive_keys (s : State) (k : Word) : arrive s (.keys k) = s.setKeys (keyLevels k) := rfl

/-- The level of key q after `keys(k)` is bit q of k (R171). -/
@[simp] theorem getElem_keyLevels (k : Word) (q : Key) : (keyLevels k)[q.val] = k.getLsbD q.val := by
  simp [keyLevels]

/-- What host inputs may change: the keys, the tag, and the events that wait (R168, R171). -/
def State.hostSide (s : State) (k : Vector Bool 16) (e : ExecState) (l : List HostEvent) : State :=
  { s with keys := k, execState := e, pendingEvents := l }

theorem arrive_sets (s : State) (x : HostInput) : ∃ k e l, arrive s x = s.hostSide k e l := by
  cases x with
  | keys k => exact ⟨keyLevels k, s.execState, s.pendingEvents, rfl⟩
  | event e =>
    simp only [arrive]
    split
    · obtain ⟨f, hf⟩ := actOn_sets [e] s
      exact ⟨s.keys, f, s.pendingEvents, by rw [hf]; rfl⟩
    · exact ⟨s.keys, s.execState, s.pendingEvents ++ [e], rfl⟩

/-- All host inputs of one gap change only those elements too. -/
theorem arriveAll_sets : ∀ (xs : List HostInput) (s : State), ∃ k e l, arriveAll xs s = s.hostSide k e l
  | [], s => ⟨s.keys, s.execState, s.pendingEvents, by cases s; rfl⟩
  | x :: xs, s => by
    obtain ⟨k, e, l, h⟩ := arrive_sets s x
    obtain ⟨k', e', l', h'⟩ := arriveAll_sets xs (arrive s x)
    exact ⟨k', e', l', by
      show arriveAll xs (arrive s x) = _
      rw [h', h]
      rfl⟩

/-- A property that every single host input keeps is kept by all the inputs of a gap. -/
theorem arriveAll_induct {P : State → Prop} (hP : ∀ s x, P s → P (arrive s x)) (xs : List HostInput) (s : State) (h : P s) :
    P (arriveAll xs s) := by
  induction xs generalizing s with
  | nil => exact h
  | cons x xs ih => exact ih (arrive s x) (hP s x h)

/-- A property that the host's schedule does not matter to, and that every single host input keeps, is kept by taking the
inputs. -/
theorem takeHostInputs_induct {P : State → Prop} (hP : ∀ s x, P s → P (arrive s x)) (hQ : ∀ s l, P s → P (s.setHostInputs l))
    (s : State) (h : P s) : P (takeHostInputs s) := by
  unfold takeHostInputs
  split
  · exact h
  · exact arriveAll_induct hP _ _ (hQ _ _ h)

/-- Taking the host's inputs changes only the keys, the tag, the events that wait and the schedule (R171). -/
theorem takeHostInputs_sets (s : State) :
    ∃ k e l, takeHostInputs s = (s.hostSide k e l).setHostInputs s.hostInputs.tail := by
  unfold takeHostInputs
  cases h : s.hostInputs with
  | nil => exact ⟨s.keys, s.execState, s.pendingEvents, by cases s; cases h; rfl⟩
  | cons now later =>
    obtain ⟨k, e, l, h'⟩ := arriveAll_sets now (s.setHostInputs later)
    exact ⟨k, e, l, by simp only [h']; rfl⟩

/-- With nothing scheduled, the host does nothing (R171). -/
theorem takeHostInputs_of_nil {s : State} (h : s.hostInputs = []) : takeHostInputs s = s := by
  unfold takeHostInputs
  rw [h]

/-- With a gap scheduled, its inputs arrive in order and the gap is taken from the schedule (R171). -/
theorem takeHostInputs_of_cons {s : State} {now : List HostInput} {later : List (List HostInput)}
    (h : s.hostInputs = now :: later) : takeHostInputs s = arriveAll now (s.setHostInputs later) := by
  unfold takeHostInputs
  rw [h]

/-- No host input moves pc (R172). -/
@[simp] theorem takeHostInputs_pc (s : State) : (takeHostInputs s).pc = s.pc := by
  obtain ⟨k, e, l, h⟩ := takeHostInputs_sets s
  rw [h]
  rfl

/-! ## The end of an instruction and of an iteration -/

/-- The end of an iteration, field by field (R166, R167, R168, R169). -/
theorem endIteration_eq (s : State) :
    endIteration s =
      { s with dt := countDown s.dt, st := countDown s.st, redrawNeeded := false, batchCount := 0, pendingEvents := [],
               execState := (actOn s.pendingEvents s).execState } := by
  have htag : ∀ (es : List HostEvent) (a b : State), a.execState = b.execState →
      (actOn es a).execState = (actOn es b).execState := by
    intro es
    induction es with
    | nil => intro a b h; exact h
    | cons e es ih => intro a b h; exact ih _ _ (by simp [h])
  unfold endIteration
  rw [actOn_eq]
  cases hr : s.redrawNeeded
  · have e := htag s.pendingEvents (((tick s).setBatchCount 0).setPendingEvents []) s rfl
    simp only [tick, State.setSound_redrawNeeded, State.setDelay_redrawNeeded, hr, Bool.false_eq_true, if_false] at e ⊢
    rw [e, ← hr]
    rfl
  · have e := htag s.pendingEvents (((flush (tick s)).setBatchCount 0).setPendingEvents []) s rfl
    simp only [tick, flush, State.setSound_redrawNeeded, State.setDelay_redrawNeeded, hr, if_true] at e ⊢
    rw [e]
    rfl

/-- The end of an instruction: the count goes on, or the iteration ends (R63, R167). -/
theorem endInstr_cases (s : State) :
    (s.batchCount + 1 < instrsPerTick s.cfg ∧ endInstr s = s.setBatchCount (s.batchCount + 1)) ∨
    (instrsPerTick s.cfg ≤ s.batchCount + 1 ∧ endInstr s = endIteration s) := by
  unfold endInstr
  split
  · exact .inl ⟨by assumption, rfl⟩
  · exact .inr ⟨by omega, rfl⟩

/-! ## One step -/

/-- The fetch either raises or hands on the opcode and the advanced pc (R46). -/
theorem withFetched_cases (s : State) (k : Word → State → Result) :
    (4094 ≤ s.pc.toNat ∧ withFetched s k = .fault (.pcOutOfRange s.pc.toNat)) ∨
    (s.pc.toNat ≤ 4093 ∧ withFetched s k = k s.opcodeAtPc (s.setPc (s.pc + 2#16))) := by
  unfold withFetched State.fetchable memSize
  by_cases h : s.pc.toNat ≤ 4096 - 3
  · exact .inr ⟨by omega, by simp [h]⟩
  · exact .inl ⟨by omega, by simp [h, raise]⟩

/-- A step of a machine that has not quit: the host's inputs, then the scheduler's part (R168, R171). -/
theorem step_of_not_quit {s : State} (h : s.execState ≠ .quit) : step s = scheduled (takeHostInputs s) := by
  unfold step machineStep
  cases he : s.execState with
  | quit => exact absurd he h
  | running => rfl
  | paused => rfl

/-- Everything a step that answers a next state can have done: nothing, because the machine has quit; the host's inputs
only, because after them it is not Running; or the host's inputs, one instruction, and the end of it (R63, R168). -/
theorem step_eq_next {s t : State} (h : step s = .next t) :
    (s.execState = .quit ∧ t = s) ∨
    (s.execState ≠ .quit ∧ (takeHostInputs s).execState ≠ .running ∧ t = takeHostInputs s) ∨
    (s.execState ≠ .quit ∧ (takeHostInputs s).execState = .running ∧ (takeHostInputs s).pc.toNat ≤ 4093 ∧
      ∃ u, exec (decodeWord (takeHostInputs s).opcodeAtPc)
          ((takeHostInputs s).setPc ((takeHostInputs s).pc + 2#16)) = .next u ∧ t = endInstr u) := by
  have key : ∀ u : State, scheduled u = .next t →
      (u.execState ≠ .running ∧ t = u) ∨ (u.execState = .running ∧ u.pc.toNat ≤ 4093 ∧
        ∃ v, exec (decodeWord u.opcodeAtPc) (u.setPc (u.pc + 2#16)) = .next v ∧ t = endInstr v) := by
    intro u hu
    unfold scheduled at hu
    cases he : u.execState with
    | running =>
      simp only [he, instrStep] at hu
      rcases withFetched_cases u (fun w t => andThen (exec (decodeWord w) t) fun u => .next (endInstr u)) with
        ⟨-, hf⟩ | ⟨hpc, hk⟩
      · rw [hf] at hu; cases hu
      · rw [hk] at hu
        obtain ⟨v, hv, ht⟩ := andThen_eq_next hu
        exact .inr ⟨rfl, hpc, v, hv, by cases ht; rfl⟩
    | paused => simp only [he] at hu; cases hu; exact .inl ⟨by simp, rfl⟩
    | quit => simp only [he] at hu; cases hu; exact .inl ⟨by simp, rfl⟩
  unfold step machineStep at h
  cases he : s.execState with
  | quit => simp only [he] at h; cases h; exact .inl ⟨rfl, rfl⟩
  | running =>
    simp only [he] at h
    rcases key _ h with hk | hk
    · exact .inr (.inl ⟨by simp, hk⟩)
    · exact .inr (.inr ⟨by simp, hk⟩)
  | paused =>
    simp only [he] at h
    rcases key _ h with hk | hk
    · exact .inr (.inl ⟨by simp, hk⟩)
    · exact .inr (.inr ⟨by simp, hk⟩)

/-! ## Runs -/

/-- A property that every step keeps is kept by any number of steps. -/
theorem run_induct {P : State → Prop} (hstep : ∀ s t, P s → step s = .next t → P t) :
    ∀ (n : Nat) (s t : State), P s → Sys2Proof.core.run n s = .next t → P t
  | 0, s, t, hs, h => by
    simp only [Host.Core.run] at h
    cases h
    exact hs
  | n + 1, s, t, hs, h => by
    simp only [Host.Core.run] at h
    split at h
    · rename_i u hu
      exact run_induct hstep n u t (hstep s u hs hu) h
    · cases h
    · cases h

/-- A property of every loaded machine, under every host schedule, that every step keeps holds of every reachable state
(R17, R180). -/
theorem reachable_induct {P : State → Prop}
    (hload : ∀ c rom s inputs, load c rom = .next s → P (s.setHostInputs inputs))
    (hstep : ∀ s t, P s → step s = .next t → P t) {s : State} (h : Reachable s) : P s := by
  induction h with
  | start h inputs => exact hload _ _ _ inputs h
  | step _ h ih => exact hstep _ _ ih h

end Sys2Proof.Machine
end

