-- ==== Sys2Proof/Tests/Slice0.lean ====
section
/-! SUPPORT. The model's own tests: the well-formedness smoke test, one written word per constructor, single steps whose
expected values are the vectors of spec/95_test_vectors.md (the id stands in each comment), and for every statement with
hypotheses a witness that meets them. -/

namespace Sys2Proof.Tests

open Sys2Proof Sys2Proof.Machine

/-! ## Helpers -/

/-- The machine of spec/95's conventions: reset, the given EXT_MODE, capacity 16, the opcode at 0x200. -/
def vec (m : ExtMode) (w : Word) : State :=
  (State.initial { defaultConfig with extMode := m, stackCapacity := .c16 }).placeOpcode 0x200 w

/-- Registers set before a vector. -/
def setVs : List (Reg × Byte) → State → State
  | [], s => s
  | (r, b) :: rest, s => setVs rest (s.setV r b)

/-- Bytes of memory set before a vector, from an address up. -/
def setBytes (a : Nat) (bs : List Byte) (s : State) : State := copyBytes a bs s

/-- The outcome is a next state of which `p` holds. -/
def onNext (r : Result) (p : State → Bool) : Bool :=
  match r with
  | .next s => p s
  | .fault _ => false
  | .refused _ => false

/-- The outcome is this fault. -/
def isFault (r : Result) (f : Fault) : Bool :=
  match r with
  | .next _ => false
  | .fault g => g == f
  | .refused _ => false

/-- The bytes from `a` up are these. -/
def bytesAre (s : State) (a : Nat) (bs : List Byte) : Bool :=
  (List.range bs.length).map (fun j => s.readByte (a + j)) == bs

/-- The lit cells are exactly these, of the cells in rows below 32 and columns below 64. -/
def litAre (s : State) (cells : List (Nat × Nat)) : Bool :=
  (List.range 32).all fun y => (List.range 64).all fun x => s.display.cell x y == cells.contains (x, y)

/-! ## Well-formedness: the one check, and ill-formed terms it refuses -/

theorem test_wf_refuses_a_recognized_word_as_nop : Instr.wf (.nopU 0x00E0#16) = false := by decide
theorem test_wf_refuses_a_recognized_word_with_fields : Instr.wf (.nopU 0x8AB4#16) = false := by decide
theorem test_wf_admits_an_unrecognized_word : Instr.wf (.nopU 0x5121#16) = true := by decide

/-! ## Decoding: one word per constructor, written from the patterns of R65 -/

theorem test_decode_cls : decodeWord 0b0000000011100000#16 = .cls := by decide
theorem test_decode_ret : decodeWord 0b0000000011101110#16 = .ret := by decide
theorem test_decode_jp : decodeWord 0b0001101010111100#16 = .jp 0xABC#12 := by decide
theorem test_decode_call : decodeWord 0b0010001100000001#16 = .call 0x301#12 := by decide
theorem test_decode_seI : decodeWord 0b0011001101000010#16 = .seI 3 0x42#8 := by decide
theorem test_decode_sneI : decodeWord 0b0100001101000011#16 = .sneI 3 0x43#8 := by decide
theorem test_decode_seR : decodeWord 0b0101000100100000#16 = .seR 1 2 := by decide
theorem test_decode_ldI : decodeWord 0b0110111110101011#16 = .ldI 0xF 0xAB#8 := by decide
theorem test_decode_addI : decodeWord 0b0111001000000010#16 = .addI 2 0x02#8 := by decide
theorem test_decode_ldR : decodeWord 0b1000000100100000#16 = .ldR 1 2 := by decide
theorem test_decode_or : decodeWord 0b1000000100100001#16 = .or 1 2 := by decide
theorem test_decode_and : decodeWord 0b1000000100100010#16 = .and 1 2 := by decide
theorem test_decode_xor : decodeWord 0b1000000100100011#16 = .xor 1 2 := by decide
theorem test_decode_addR : decodeWord 0b1000101010110100#16 = .addR 0xA 0xB := by decide
theorem test_decode_sub : decodeWord 0b1000000100100101#16 = .sub 1 2 := by decide
theorem test_decode_shr : decodeWord 0b1000000100100110#16 = .shr 1 2 := by decide
theorem test_decode_subn : decodeWord 0b1000000100100111#16 = .subn 1 2 := by decide
theorem test_decode_shl : decodeWord 0b1000000100101110#16 = .shl 1 2 := by decide
theorem test_decode_sneR : decodeWord 0b1001000100100000#16 = .sneR 1 2 := by decide
theorem test_decode_ldA : decodeWord 0b1010111111111111#16 = .ldA 0xFFF#12 := by decide
theorem test_decode_jpV0 : decodeWord 0b1011001100000000#16 = .jpV0 0x300#12 := by decide
theorem test_decode_rnd : decodeWord 0b1100000100001111#16 = .rnd 1 0x0F#8 := by decide
theorem test_decode_drw : decodeWord 0b1101000000010101#16 = .drw 0 1 5 := by decide
theorem test_decode_skp : decodeWord 0b1110010110011110#16 = .skp 5 := by decide
theorem test_decode_sknp : decodeWord 0b1110010110100001#16 = .sknp 5 := by decide
theorem test_decode_ldDt : decodeWord 0b1111000100000111#16 = .ldDt 1 := by decide
theorem test_decode_ldK : decodeWord 0b1111001100001010#16 = .ldK 3 := by decide
theorem test_decode_stDt : decodeWord 0b1111001000010101#16 = .stDt 2 := by decide
theorem test_decode_stSt : decodeWord 0b1111001000011000#16 = .stSt 2 := by decide
theorem test_decode_addA : decodeWord 0b1111001000011110#16 = .addA 2 := by decide
theorem test_decode_ldF : decodeWord 0b1111101000101001#16 = .ldF 0xA := by decide
theorem test_decode_bcd : decodeWord 0b1111000000110011#16 = .bcd 0 := by decide
theorem test_decode_stm : decodeWord 0b1111001001010101#16 = .stm 2 := by decide
theorem test_decode_ldm : decodeWord 0b1111001001100101#16 = .ldm 2 := by decide
theorem test_decode_nopU : decodeWord 0b1111000101110101#16 = .nopU 0xF175#16 := by decide
/-- The words of section 2.6 of spec/95 match no row. -/
theorem test_decode_unrecognized :
    [0x0000#16, 0x0123#16, 0x01E0#16, 0x0FEE#16, 0x00E1#16, 0x00FE#16, 0x5121#16, 0x8128#16, 0x812F#16, 0x9121#16,
     0xE100#16, 0xE19F#16, 0xF1FF#16, 0xF100#16, 0xF175#16, 0xF185#16].all (fun w => decodeWord w == .nopU w) = true := by
  decide

/-! ## Single steps: display -/

/-- D-1. -/
theorem test_cls : onNext (step ((vec .original 0x00E0#16).setDisplay ((blankDisplay 64 32).flip 63 31)))
    (fun t => litAre t [] && t.redrawNeeded && t.pc == 0x202#16 && t.batchCount == 1) = true := by decide +kernel
/-- D-8: partial collision; bit 7 is the left cell. -/
theorem test_drw_partial_collision :
    onNext (step ((setBytes 0x300 [0xC0#8] ((vec .original 0xD011#16).setIndex 0x300#16)).setDisplay
        ((blankDisplay 64 32).flip 1 0)))
      (fun t => litAre t [(0, 0)] && t.getV vF == 1#8) = true := by decide +kernel
/-- D-5 (67 mod 64 = 3, 33 mod 32 = 1) and D-6 (bottom clip). -/
theorem test_drw_start_wraps_and_body_clips :
    onNext (step (setVs [(0, 67#8), (1, 33#8)] (setBytes 0x300 [0xFF#8] ((vec .extended 0xD011#16).setIndex 0x300#16))))
      (fun t => litAre t ((List.range 8).map fun c => (3 + c, 1)) && t.getV vF == 0#8 && t.redrawNeeded) = true ∧
    onNext (step (setVs [(1, 31#8)] (setBytes 0x300 [0x80#8, 0x80#8] ((vec .original 0xD012#16).setIndex 0x300#16))))
      (fun t => litAre t [(0, 31)] && t.getV vF == 0#8) = true := by
  decide +kernel

/-! ## Control transfer -/

/-- C-4. -/
theorem test_ret :
    onNext (exec .ret { vec .original 0x00EE#16 with sp := 1, stack := (Vector.replicate 16 0#16).set 0 0x206#16 })
      (fun t => t.sp == 0 && t.pc == 0x206#16) = true := by decide
/-- C-5. -/
theorem test_ret_underflow : isFault (step (vec .original 0x00EE#16)) .stackUnderflow = true := by decide
/-- C-1. -/
theorem test_jp : onNext (step (vec .original 0x1ABC#16)) (fun t => t.pc == 0xABC#16) = true := by decide
/-- C-3. -/
theorem test_call : onNext (step (vec .original 0x2300#16))
    (fun t => t.stack[0] == 0x202#16 && t.sp == 1 && t.pc == 0x300#16) = true := by decide
/-- C-6. -/
theorem test_call_overflow : isFault (step { State.reset.placeOpcode 0x200 0x2300#16 with sp := 12 }) .stackOverflow = true := by
  decide
/-- C-7 and C-8. -/
theorem test_seI : onNext (step (setVs [(3, 0x42#8)] (vec .original 0x3342#16))) (fun t => t.pc == 0x204#16) = true ∧
    onNext (step (setVs [(3, 0x42#8)] (vec .original 0x3343#16))) (fun t => t.pc == 0x202#16) = true := by decide
/-- C-9 and C-10. -/
theorem test_sneI : onNext (step (setVs [(3, 0x42#8)] (vec .original 0x4342#16))) (fun t => t.pc == 0x202#16) = true ∧
    onNext (step (setVs [(3, 0x42#8)] (vec .original 0x4343#16))) (fun t => t.pc == 0x204#16) = true := by decide
/-- C-11 and C-12. -/
theorem test_seR : onNext (step (setVs [(1, 7#8), (2, 7#8)] (vec .original 0x5120#16))) (fun t => t.pc == 0x204#16) = true ∧
    onNext (step (setVs [(1, 7#8), (2, 8#8)] (vec .original 0x5120#16))) (fun t => t.pc == 0x202#16) = true := by decide
/-- C-14 and C-15. -/
theorem test_sneR : onNext (step (setVs [(1, 7#8), (2, 8#8)] (vec .original 0x9120#16))) (fun t => t.pc == 0x204#16) = true ∧
    onNext (step (setVs [(1, 7#8), (2, 7#8)] (vec .original 0x9120#16))) (fun t => t.pc == 0x202#16) = true := by decide
/-- C-18: no reduction modulo 4096. -/
theorem test_jpV0 : onNext (step (setVs [(0, 0xFF#8)] (vec .original 0xBFFF#16))) (fun t => t.pc == 0x10FE#16) = true := by
  decide
/-- C-21. -/
theorem test_fetch_at_4094 : isFault (step ((vec .original 0#16).setPc 0xFFE#16)) (.pcOutOfRange 0xFFE) = true := by decide
/-- C-23. -/
theorem test_fetch_at_4092 : onNext (step ((vec .original 0#16).setPc 0xFFC#16)) (fun t => t.pc == 0xFFE#16) = true := by
  decide

/-! ## Registers and ALU -/

/-- A-A1. -/
theorem test_ldI : onNext (step (vec .original 0x6FAB#16)) (fun t => t.getV vF == 0xAB#8 && t.pc == 0x202#16) = true := by decide
/-- A-A2. -/
theorem test_addI : onNext (step (setVs [(2, 0xFF#8), (vF, 9#8)] (vec .original 0x7202#16)))
    (fun t => t.getV 2 == 1#8 && t.getV vF == 9#8) = true := by decide
/-- A-A4. -/
theorem test_ldR : onNext (step (setVs [(1, 9#8)] (vec .original 0x8010#16))) (fun t => t.getV 0 == 9#8) = true := by decide
/-- A-A5 and A-A6. -/
theorem test_or :
    onNext (step (setVs [(0, 4#8), (1, 8#8), (vF, 7#8)] (vec .original 0x8011#16)))
      (fun t => t.getV 0 == 0x0C#8 && t.getV vF == 0#8) = true ∧
    onNext (step (setVs [(0, 4#8), (1, 8#8), (vF, 7#8)] (vec .extended 0x8011#16)))
      (fun t => t.getV 0 == 0x0C#8 && t.getV vF == 7#8) = true := by decide
/-- A-A7: the result in VF is lost to the clear. -/
theorem test_or_into_vF : onNext (step (setVs [(vF, 4#8), (1, 8#8)] (vec .original 0x8F11#16)))
    (fun t => t.getV vF == 0#8) = true := by decide
/-- A-A11. -/
theorem test_and : onNext (step (setVs [(0, 0x0C#8), (1, 0x0A#8), (vF, 7#8)] (vec .original 0x8012#16)))
    (fun t => t.getV 0 == 8#8 && t.getV vF == 0#8) = true := by decide
/-- A-A12, mode 1. -/
theorem test_xor : onNext (step (setVs [(0, 0x0C#8), (1, 0x0A#8), (vF, 7#8)] (vec .extended 0x8013#16)))
    (fun t => t.getV 0 == 6#8 && t.getV vF == 7#8) = true := by decide
/-- A-B1. -/
theorem test_addR : onNext (step (setVs [(0, 200#8), (1, 100#8)] (vec .original 0x8014#16)))
    (fun t => t.getV 0 == 44#8 && t.getV vF == 1#8) = true := by decide
/-- A-B5 (decision D6): the sum survives in VF. -/
theorem test_addR_into_vF : onNext (step (setVs [(vF, 200#8), (1, 100#8)] (vec .original 0x8F14#16)))
    (fun t => t.getV vF == 44#8) = true := by decide
/-- A-C2. -/
theorem test_sub : onNext (step (setVs [(0, 3#8), (1, 5#8), (vF, 1#8)] (vec .original 0x8015#16)))
    (fun t => t.getV 0 == 254#8 && t.getV vF == 0#8) = true := by decide
/-- A-C7 (decision D6): Y = 15. -/
theorem test_sub_by_vF : onNext (step (setVs [(1, 5#8), (vF, 3#8)] (vec .original 0x81F5#16)))
    (fun t => t.getV 1 == 4#8 && t.getV vF == 1#8) = true := by decide
/-- A-E1. -/
theorem test_shr :
    onNext (step (setVs [(0, 3#8), (1, 8#8)] (vec .original 0x8016#16))) (fun t => t.getV 0 == 4#8 && t.getV vF == 0#8) = true ∧
    onNext (step (setVs [(0, 3#8), (1, 8#8)] (vec .extended 0x8016#16))) (fun t => t.getV 0 == 1#8 && t.getV vF == 1#8) = true := by
  decide
/-- A-E3, mode 1: the shifted value is lost. -/
theorem test_shr_into_vF : onNext (step (setVs [(vF, 3#8), (1, 8#8)] (vec .extended 0x8F16#16)))
    (fun t => t.getV vF == 1#8) = true := by decide
/-- A-D2. -/
theorem test_subn : onNext (step (setVs [(0, 5#8), (1, 3#8), (vF, 1#8)] (vec .original 0x8017#16)))
    (fun t => t.getV 0 == 254#8 && t.getV vF == 0#8) = true := by decide
/-- A-D7 (decision D6). -/
theorem test_subn_from_vF : onNext (step (setVs [(1, 5#8), (vF, 3#8)] (vec .original 0x81F7#16)))
    (fun t => t.getV 1 == 251#8 && t.getV vF == 0#8) = true := by decide
/-- A-E7. -/
theorem test_shl :
    onNext (step (setVs [(0, 0x80#8), (1, 0x40#8)] (vec .original 0x801E#16)))
      (fun t => t.getV 0 == 0x80#8 && t.getV vF == 0#8) = true ∧
    onNext (step (setVs [(0, 0x80#8), (1, 0x40#8)] (vec .extended 0x801E#16)))
      (fun t => t.getV 0 == 0#8 && t.getV vF == 1#8) = true := by decide

/-! ## Index and memory -/

/-- M-2. -/
theorem test_ldA : onNext (step (vec .original 0xAFFF#16)) (fun t => t.i == 0x0FFF#16) = true := by decide
/-- M-4 and M-5. -/
theorem test_addA :
    onNext (step (setVs [(0, 1#8)] ((vec .original 0xF01E#16).setIndex 0x0FFF#16))) (fun t => t.i == 0x1000#16 && t.getV vF == 0#8) = true ∧
    onNext (step (setVs [(0, 2#8)] ((vec .original 0xF01E#16).setIndex 0xFFFF#16))) (fun t => t.i == 1#16) = true := by decide
/-- M-7: no mask. -/
theorem test_ldF : onNext (step (setVs [(0, 0xFF#8)] (vec .original 0xF029#16))) (fun t => t.i == 0x04FB#16) = true := by decide
/-- M-13: the last legal I. -/
theorem test_bcd : onNext (step (setVs [(0, 123#8)] ((vec .original 0xF033#16).setIndex 0xFFD#16)))
    (fun t => bytesAre t 0xFFD [1#8, 2#8, 3#8] && t.i == 0xFFD#16) = true := by decide
/-- M-14. -/
theorem test_bcd_out_of_range : isFault (step (setVs [(0, 123#8)] ((vec .original 0xF033#16).setIndex 0xFFE#16)))
    (.memoryOutOfRange 4096) = true := by decide
/-- M-15. -/
theorem test_stm :
    onNext (step (setVs [(0, 1#8), (1, 2#8), (2, 3#8), (3, 4#8)] ((vec .original 0xF255#16).setIndex 0x300#16)))
      (fun t => bytesAre t 0x300 [1#8, 2#8, 3#8, 0#8] && t.i == 0x303#16) = true ∧
    onNext (step (setVs [(0, 1#8), (1, 2#8), (2, 3#8), (3, 4#8)] ((vec .extended 0xF255#16).setIndex 0x300#16)))
      (fun t => bytesAre t 0x300 [1#8, 2#8, 3#8, 0#8] && t.i == 0x300#16) = true := by decide
/-- M-17. -/
theorem test_stm_out_of_range : isFault (step ((vec .original 0xF155#16).setIndex 0xFFF#16)) (.memoryOutOfRange 4096) = true := by
  decide
/-- M-18. -/
theorem test_ldm :
    onNext (step (setVs [(3, 7#8)] (setBytes 0x300 [2#8, 5#8, 4#8, 9#8] ((vec .original 0xF265#16).setIndex 0x300#16))))
      (fun t => t.getV 0 == 2#8 && t.getV 1 == 5#8 && t.getV 2 == 4#8 && t.getV 3 == 7#8 && t.i == 0x303#16) = true := by
  decide
/-- M-21. -/
theorem test_ldm_out_of_range : isFault (step ((vec .original 0xFF65#16).setIndex 0xFF1#16)) (.memoryOutOfRange 4096) = true := by
  decide

/-! ## Random, keypad, timers -/

/-- K-12. -/
theorem test_rnd : (rndWith 0xAB#8 0 0x0F#8 (vec .original 0xC00F#16)).getV 0 = 0x0B#8 := by decide
/-- The step of RND goes on whatever the draw. -/
theorem test_rnd_runs : onNext (step (vec .original 0xC00F#16)) (fun t => t.pc == 0x202#16 && t.randDraws == 1) = true := by
  decide +kernel
/-- K-7 and K-2. -/
theorem test_skp :
    onNext (step (setVs [(0, 15#8)] ((vec .original 0xE09E#16).setKeys (keyLevels 0x8000#16)))) (fun t => t.pc == 0x204#16) = true ∧
    onNext (step (setVs [(0, 5#8)] (vec .original 0xE09E#16))) (fun t => t.pc == 0x202#16) = true := by decide
/-- K-5: not masked. -/
theorem test_skp_out_of_range :
    isFault (step (setVs [(0, 16#8)] ((vec .original 0xE09E#16).setKeys (keyLevels 1#16)))) (.keyIndexOutOfRange 16) = true := by
  decide
/-- K-3 and K-4. -/
theorem test_sknp :
    onNext (step (setVs [(0, 5#8)] (vec .original 0xE0A1#16))) (fun t => t.pc == 0x204#16) = true ∧
    onNext (step (setVs [(0, 5#8)] ((vec .original 0xE0A1#16).setKeys (keyLevels 0x20#16)))) (fun t => t.pc == 0x202#16) = true := by
  decide
/-- K-6. -/
theorem test_sknp_out_of_range : isFault (step (setVs [(0, 255#8)] (vec .original 0xE0A1#16))) (.keyIndexOutOfRange 255) = true := by
  decide
/-- K-8. -/
theorem test_ldDt : onNext (step ((vec .original 0xF007#16).setDelay 3#8)) (fun t => t.getV 0 == 3#8 && t.dt == 3#8) = true := by
  decide
/-- K-17: the lowest index. -/
theorem test_ldK_detects : onNext (step ((vec .original 0xF30A#16).setKeys (keyLevels 0x0084#16)))
    (fun t => t.pc == 0x200#16 && t.pendingKey == some 2 && t.getV 3 == 0#8) = true := by decide
/-- K-19: released, other keys ignored. -/
theorem test_ldK_commits : onNext (step (((vec .original 0xF30A#16).setPendingKey (some 2)).setKeys (keyLevels 0x0080#16)))
    (fun t => t.pc == 0x202#16 && t.pendingKey == none && t.getV 3 == 2#8) = true := by decide
/-- K-9. -/
theorem test_stDt : onNext (step (setVs [(0, 60#8)] (vec .original 0xF015#16))) (fun t => t.dt == 60#8 && t.st == 0#8) = true := by
  decide
/-- K-10. -/
theorem test_stSt : onNext (step (setVs [(0, 2#8)] (vec .original 0xF018#16))) (fun t => t.st == 2#8 && t.soundOn && t.dt == 0#8) = true := by
  decide
/-- U-7: nothing but pc and batch_count changes. -/
theorem test_nopU : step (vec .original 0x5121#16) =
    .next (((vec .original 0x5121#16).setPc 0x202#16).setBatchCount 1) := by rfl

/-! ## The scheduler -/

/-- T-1 and T-4, through the end of an iteration. -/
theorem test_tick_at_the_end_of_a_batch :
    onNext (step ((((vec .original 0#16).setDelay 3#8).setSound 1#8).setBatchCount 9))
      (fun t => t.dt == 2#8 && t.st == 0#8 && !t.soundOn && t.batchCount == 0) = true := by decide
/-- R167, R168: a pause raised in the middle of a batch acts at its end, after the instruction. -/
theorem test_pause_waits_for_the_boundary :
    onNext (step (((vec .original 0#16).setBatchCount 9).setHostInputs [[.event .pauseToggle]]))
      (fun t => t.execState == .paused && t.pc == 0x202#16) = true ∧
    onNext (step (((vec .original 0#16).setBatchCount 8).setHostInputs [[.event .pauseToggle]]))
      (fun t => t.execState == .running && t.pendingEvents == [.pauseToggle]) = true := by decide
/-- S12: the ROM size bound. -/
theorem test_load_bounds :
    load defaultConfig (some (List.replicate 3585 0#8)) = .fault .romTooLarge ∧ load defaultConfig none = .fault .romUnreadable := by
  refine ⟨?_, rfl⟩
  have h : (List.replicate 3585 0#8).length = 3585 := List.length_replicate
  generalize List.replicate 3585 0#8 = l at h
  simp [load, show defaultConfig.legal = true from rfl, maxRomLen, memSize, entry, raise, h]
/-- Log entry 28: the first opcode of a one-byte ROM. -/
theorem test_load_of_one_byte : onNext (load defaultConfig (some [0x12#8])) (fun t => t.opcodeAtPc == 0x1200#16) = true := by
  decide
/-- Z-1. -/
theorem test_load_places_the_rom : onNext (load defaultConfig (some [0xA2#8, 0xF0#8]))
    (fun t => bytesAre t 0x1FF [0#8, 0xA2#8, 0xF0#8, 0#8] && t.readByte 0 == 0xF0#8 && t.pc == 0x200#16) = true := by decide

/-! ## Witnesses: for every statement with hypotheses, a state and operands that meet them -/

/-- Masks of `EncodedAs` clauses: a word each mask and match admit (R65). -/
theorem witness_EncodedAs :
    [(0x00E0#16, 0xFFFF#16, 0x00E0#16), (0x00EE#16, 0xFFFF#16, 0x00EE#16), (0x1ABC#16, 0xF000#16, 0x1000#16),
     (0x2300#16, 0xF000#16, 0x2000#16), (0x3342#16, 0xF000#16, 0x3000#16), (0x4342#16, 0xF000#16, 0x4000#16),
     (0x5120#16, 0xF00F#16, 0x5000#16), (0x6005#16, 0xF000#16, 0x6000#16), (0x7202#16, 0xF000#16, 0x7000#16),
     (0x8010#16, 0xF00F#16, 0x8000#16), (0x8011#16, 0xF00F#16, 0x8001#16), (0x8012#16, 0xF00F#16, 0x8002#16),
     (0x8013#16, 0xF00F#16, 0x8003#16), (0x8014#16, 0xF00F#16, 0x8004#16), (0x8015#16, 0xF00F#16, 0x8005#16),
     (0x8016#16, 0xF00F#16, 0x8006#16), (0x8017#16, 0xF00F#16, 0x8007#16), (0x801E#16, 0xF00F#16, 0x800E#16),
     (0x9120#16, 0xF00F#16, 0x9000#16)].all (fun p => p.1 &&& p.2.1 == p.2.2) = true ∧
    [(0xA300#16, 0xF000#16, 0xA000#16), (0xB300#16, 0xF000#16, 0xB000#16), (0xC00F#16, 0xF000#16, 0xC000#16),
     (0xD015#16, 0xF000#16, 0xD000#16), (0xE09E#16, 0xF0FF#16, 0xE09E#16), (0xE0A1#16, 0xF0FF#16, 0xE0A1#16),
     (0xF007#16, 0xF0FF#16, 0xF007#16), (0xF30A#16, 0xF0FF#16, 0xF00A#16), (0xF015#16, 0xF0FF#16, 0xF015#16),
     (0xF018#16, 0xF0FF#16, 0xF018#16), (0xF01E#16, 0xF0FF#16, 0xF01E#16), (0xF029#16, 0xF0FF#16, 0xF029#16),
     (0xF033#16, 0xF0FF#16, 0xF033#16), (0xF255#16, 0xF0FF#16, 0xF055#16), (0xFF65#16, 0xF0FF#16, 0xF065#16)].all
      (fun p => p.1 &&& p.2.1 == p.2.2) = true := by decide

theorem witness_DecodeOfEncode : Instr.wf (.seI 3 0x42#8) = true ∧ Instr.wf (.nopU 0x5121#16) = true := by decide

theorem witness_DecoderFollowsOpcodeMap :
    (opcodeRows.any fun r => r.admits 0xD015#16) = true ∧ recognized 0x5121#16 = false ∧ recognized 0x5120#16 = true := by decide

/-- Once with no host input due, once with a pause that the host lifts. -/
theorem witness_StepRunsDecodedInstr :
    (let s := vec .original 0x6005#16
     s.execState ≠ .quit ∧ (takeHostInputs s).execState = .running ∧ (takeHostInputs s).pc.toNat ≤ 4093 ∧
     decodeWord (bigEndian (s.readByte 0x200) (s.readByte 0x201)) = .ldI 0 5#8 ∧ s.hostInputs = []) ∧
    (let s := ((vec .original 0x6005#16).setExecState .paused).setHostInputs [[.event .pauseToggle]]
     s.execState ≠ .quit ∧ (takeHostInputs s).execState = .running ∧ (takeHostInputs s).pc.toNat ≤ 4093) := by decide

/-- The lowest pc outside the range, the largest one any rule produces, and a paused machine that a due input resumes. -/
theorem witness_FetchBeyondRangeFaults :
    (let s := (vec .original 0#16).setPc 0xFFE#16
     s.execState ≠ .quit ∧ (takeHostInputs s).execState = .running ∧ 4094 ≤ s.pc.toNat) ∧
    (let s := (vec .original 0#16).setPc 0x10FE#16
     s.execState ≠ .quit ∧ (takeHostInputs s).execState = .running ∧ 4094 ≤ s.pc.toNat) ∧
    (let s := (((vec .original 0#16).setPc 0xFFE#16).setExecState .paused).setHostInputs [[.keys 1#16, .event .pauseToggle]]
     s.execState ≠ .quit ∧ (takeHostInputs s).execState = .running ∧ 4094 ≤ s.pc.toNat) := by decide

theorem witness_EndOfInstrCountsAndTicks :
    Config.legal { defaultConfig with clockRate := 361 } = true ∧
    (let s := (vec .original 0#16).setBatchCount 8
     s.batchCount + 1 < instrsPerTick s.cfg) ∧
    (let s := ((vec .original 0#16).setBatchCount 9).setPendingEvents [.pauseToggle, .quit]
     instrsPerTick s.cfg ≤ s.batchCount + 1) := by decide

theorem witness_TickDecrementsTimersFlooredAtZero :
    (∃ t, exec (.stSt 0) (vec .original 0xF018#16) = .next t ∧ ∀ x, Instr.stSt 0 ≠ .stDt x) ∧
    (∃ t, exec (.stDt 0) (vec .original 0xF015#16) = .next t ∧ ∀ x, Instr.stDt 0 ≠ .stSt x) :=
  ⟨⟨_, rfl, by decide⟩, ⟨_, rfl, by decide⟩⟩

theorem witness_BatchCountGoesRoundOverSteps :
    ∃ (k : Nat) (s t : State), 1 < k ∧ s.execState = .running ∧ s.hostInputs = [] ∧ s.pendingEvents = [] ∧
      s.batchCount < instrsPerTick s.cfg ∧ Sys2Proof.core.run k s = .next t :=
  ⟨2, (vec .original 0#16).setBatchCount 9, _, by decide, rfl, rfl, rfl, by decide, rfl⟩

theorem witness_PausedAndQuitKeepState :
    ((vec .original 0#16).setExecState .quit).execState = .quit ∧
    (let s := (vec .original 0#16).setExecState .paused
     s.execState = .paused ∧ s.hostInputs = []) := by decide

theorem witness_HostEventsActAtBoundaries :
    ((vec .original 0#16).setBatchCount 1).batchCount ≠ 0 ∧
    (let s := vec .original 0#16
     s.batchCount = 0 ∧ s.execState = .running) ∧
    (let s := (vec .original 0#16).setExecState .paused
     s.batchCount = 0 ∧ s.execState = .paused) ∧
    ((vec .original 0#16).setExecState .quit).execState = .quit ∧
    (let s := ((vec .original 0#16).setBatchCount 9).setPendingEvents [.pauseToggle]
     instrsPerTick s.cfg ≤ s.batchCount + 1 ∧ s.execState = .running ∧ s.pendingEvents = [.pauseToggle]) ∧
    (let s := ((vec .original 0#16).setBatchCount 9).setPendingEvents [.quit, .pauseToggle]
     instrsPerTick s.cfg ≤ s.batchCount + 1 ∧ .quit ∈ s.pendingEvents) ∧
    (let s := (vec .original 0#16).setHostInputs [[.event .quit], [.keys 1#16]]
     s.batchCount = 0 ∧ s.execState ≠ .quit ∧ s.hostInputs = [.event .quit] :: [[.keys 1#16]]) ∧
    (let s := (vec .original 0#16).setHostInputs [[.event .pauseToggle], [.keys 1#16]]
     s.batchCount = 0 ∧ s.execState = .running ∧ s.hostInputs = [.event .pauseToggle] :: [[.keys 1#16]]) ∧
    (let s := ((vec .original 0#16).setExecState .paused).setHostInputs [[.event .pauseToggle, .keys 1#16]]
     s.batchCount = 0 ∧ s.execState = .paused ∧ s.hostInputs = (.event .pauseToggle :: [.keys 1#16]) :: []) := by decide

theorem witness_KeysStepReplacesLevels :
    let s := (vec .original 0xE09E#16).setHostInputs [[.keys 0x8001#16, .event .pauseToggle], []]
    let u := (s.setKeys (keyLevels 0x8001#16)).setHostInputs [[.event .pauseToggle], []]
    s.execState ≠ .quit ∧ s.hostInputs = (.keys 0x8001#16 :: [.event .pauseToggle]) :: [[]] ∧
    (∀ q : Key, u.keyDown q = (0x8001#16).getLsbD q.val) ∧
    u = { s with keys := u.keys, hostInputs := [.event .pauseToggle] :: [[]] } := by decide

theorem witness_ClsClearsDisplay : ∃ x : Reg, x ≠ 0 := ⟨1, by decide⟩

/-- N = 0 with I outside memory, the last range inside memory, and the first outside it. -/
theorem witness_DrwXorsSpriteAndReportsCollision :
    (let s := (vec .original 0xD010#16).setIndex 0xFFFF#16
     s.display.length = s.cfg.displayH ∧ (∀ row ∈ s.display, row.length = s.cfg.displayW) ∧ (0 : Fin 16).val = 0) ∧
    (let s := (vec .original 0xD01F#16).setIndex 0xFF1#16
     s.display.length = s.cfg.displayH ∧ (∀ row ∈ s.display, row.length = s.cfg.displayW) ∧
     s.i.toNat + (15 : Fin 16).val ≤ 4096) ∧
    (let s := (vec .original 0xD01F#16).setIndex 0xFF2#16
     (15 : Fin 16).val ≠ 0 ∧ 4096 < s.i.toNat + (15 : Fin 16).val) := by decide

theorem witness_DrawLoopsEqualClosedForm :
    (blankDisplay 64 32).length = 32 ∧ ∀ l ∈ blankDisplay 64 32, l.length = 64 := by decide

theorem witness_DrawTwiceRestoresDisplay :
    (blankDisplay 3 2).length = 2 ∧ (∀ l ∈ blankDisplay 3 2, l.length = 3) ∧
    ∀ c r : Nat, (blankDisplay 3 2).cell c r = false :=
  ⟨by decide, by decide, fun c r => cell_blankDisplay 3 2 c r⟩

theorem witness_RetPopsPc :
    (vec .original 0x00EE#16).sp.val = 0 ∧
    ({ vec .original 0x00EE#16 with sp := 1 } : State).sp.val = (0 : Fin 16).val + 1 ∧
    ({ vec .original 0x00EE#16 with sp := 16 } : State).sp.val = (15 : Fin 16).val + 1 := by decide

/-- The stack full, one entry short of it, and empty. -/
theorem witness_CallPushesPc :
    (let s : State := { vec .original 0x2300#16 with sp := 16 }
     s.sp.val = s.cfg.stackCapacity.toNat) ∧
    (let s : State := { vec .original 0x2300#16 with sp := 15 }
     s.sp.val = (15 : Fin 16).val ∧ s.sp.val < s.cfg.stackCapacity.toNat) ∧
    (let s := vec .original 0x2300#16
     s.sp.val = (0 : Fin 16).val ∧ s.sp.val < s.cfg.stackCapacity.toNat) := by decide

theorem witness_SkipsOnRegisters : ∃ n : Fin 16, n ≠ 0 := ⟨15, by decide⟩

theorem witness_CallThenRetReturns :
    let s := (vec .original 0x2300#16).placeOpcode 0x300 0x00EE#16
    s.execState = .running ∧ s.hostInputs = [] ∧ s.pendingEvents = [] ∧ s.pc.toNat ≤ 4093 ∧ (0x300#12).toNat ≤ 4093 ∧
    s.sp.val < s.cfg.stackCapacity.toNat ∧
    decodeWord (bigEndian (s.readByte s.pc.toNat) (s.readByte (s.pc.toNat + 1))) = .call 0x300#12 ∧
    decodeWord (bigEndian (s.readByte (0x300#12).toNat) (s.readByte ((0x300#12).toNat + 1))) = .ret := by decide

/-- Serves AddRegistersWithCarry, SubtractWithNoBorrowFlag, ReverseSubtractWithNoBorrowFlag and ShiftsAndTheirSource: generic
operands, Y = 15 alone, X = 15 alone, and both. -/
theorem witness_AddAndSubtractClauses :
    ((0 : Reg) ≠ vF ∧ (1 : Reg) ≠ vF) ∧ ((0 : Reg) ≠ vF ∧ (15 : Reg) = vF) ∧ ((15 : Reg) = vF ∧ (1 : Reg) ≠ vF) ∧
    ((15 : Reg) = vF ∧ (15 : Reg) = vF) := by decide

theorem witness_LogicOpsAndTheirFlagClear :
    (vec .original 0x8011#16).cfg.extMode = .original ∧ (vec .extended 0x8011#16).cfg.extMode = .extended ∧ (0 : Reg) ≠ vF := by
  decide

/-- The last I inside memory, and the first outside it. -/
theorem witness_BcdStoresDigits :
    ((vec .original 0xF033#16).setIndex 0xFFD#16).i.toNat + 2 ≤ 4095 ∧
    4095 < ((vec .original 0xF033#16).setIndex 0xFFE#16).i.toNat + 2 := by decide

theorem witness_StmStoresRegisters :
    ((vec .original 0xFF55#16).setIndex 0xFF0#16).i.toNat + (15 : Reg).val ≤ 4095 ∧
    ((vec .extended 0xF055#16).setIndex 0xFFF#16).i.toNat + (0 : Reg).val ≤ 4095 ∧
    4095 < ((vec .original 0xF155#16).setIndex 0xFFF#16).i.toNat + (1 : Reg).val := by decide

theorem witness_LdmLoadsRegisters :
    ((vec .original 0xFF65#16).setIndex 0xFF0#16).i.toNat + (15 : Reg).val ≤ 4095 ∧
    ((vec .extended 0xF065#16).setIndex 0xFFF#16).i.toNat + (0 : Reg).val ≤ 4095 ∧
    4095 < ((vec .original 0xF065#16).setIndex 0x1000#16).i.toNat + (0 : Reg).val := by decide

theorem witness_StoreIsSeenByNextFetch :
    ∃ t, exec (.stm 1) ((vec .original 0xF155#16).setIndex 0x200#16) = .next t ∧ (0 : Reg).val ≤ (1 : Reg).val ∧
      ((vec .original 0xF155#16).setIndex 0x200#16).pc.toNat = ((vec .original 0xF155#16).setIndex 0x200#16).dataBase + (0 : Reg).val ∧
      ((vec .original 0xF155#16).setIndex 0x200#16).pc.toNat + 1 =
        ((vec .original 0xF155#16).setIndex 0x200#16).dataBase + (1 : Reg).val :=
  ⟨_, rfl, by decide, by decide, by decide⟩

/-- The largest legal index, and the first illegal one. -/
theorem witness_KeySkips :
    ((setVs [(0, 15#8)] (vec .original 0xE09E#16)).getV 0).toNat = (15 : Key).val ∧
    15 < ((setVs [(0, 16#8)] (vec .original 0xE09E#16)).getV 0).toNat := by decide

theorem witness_KeyWaitPhases :
    (let s := vec .original 0xF30A#16
     s.pendingKey = none ∧ ∀ k, s.keyDown k = false) ∧
    (let s := (vec .original 0xF30A#16).setKeys (keyLevels 0x0084#16)
     s.pendingKey = none ∧ s.keyDown 2 = true ∧ ∀ j : Key, j.val < (2 : Key).val → s.keyDown j = false) ∧
    (let s := ((vec .original 0xF30A#16).setKeys (keyLevels 0x0004#16)).setPendingKey (some 2)
     s.pendingKey = some 2 ∧ s.keyDown 2 = true) ∧
    (let s := ((vec .original 0xF30A#16).setKeys (keyLevels 0x0080#16)).setPendingKey (some 2)
     s.pendingKey = some 2 ∧ s.keyDown 2 = false) := by decide

/-- Stalled with no key, and about to commit key 15. -/
theorem witness_KeyWaitStallsAtItsOwnAddress :
    (let s := vec .original 0xF30A#16
     s.execState = .running ∧ s.hostInputs = [] ∧ s.pc.toNat ≤ 4093 ∧ decodeWord s.opcodeAtPc = .ldK 3 ∧ s.pendingKey = none) ∧
    (let s := (vec .original 0xF30A#16).setPendingKey (some 15)
     s.execState = .running ∧ s.hostInputs = [] ∧ s.pc.toNat ≤ 4093 ∧ decodeWord s.opcodeAtPc = .ldK 3 ∧
     s.pendingKey = some 15 ∧ s.keyDown 15 = false) := by decide

theorem witness_SoundFollowsSoundTimer :
    ∃ t, exec (.stDt 0) (vec .original 0xF015#16) = .next t ∧ ∀ x, Instr.stDt 0 ≠ .stSt x := ⟨_, rfl, by decide⟩

theorem witness_UnrecognizedOpcodesDoNothing : recognized 0x0000#16 = false ∧ recognized 0x9121#16 = false := by decide

/-- Serves InstructionsWriteOnlyTheirOwn and NoInstructionActsForTheHost: a storing instruction that completes. -/
theorem witness_InstructionsWriteOnlyTheirOwn :
    ∃ t, exec (.bcd 0) ((vec .original 0xF033#16).setIndex 0x300#16) = .next t := ⟨_, rfl⟩

/-- 7XNN, and 8XY1 in mode 1. -/
theorem witness_FlagWrittenOnlyByListedOpcodes :
    (∃ t, exec (.addI 2 2#8) (vec .original 0x7202#16) = .next t ∧ writesFlag (vec .original 0x7202#16).cfg.extMode (.addI 2 2#8) = false ∧
      namesFlagAsDestination (.addI 2 2#8) = false) ∧
    (∃ t, exec (.or 0 1) (vec .extended 0x8011#16) = .next t ∧ writesFlag (vec .extended 0x8011#16).cfg.extMode (.or 0 1) = false ∧
      namesFlagAsDestination (.or 0 1) = false) :=
  ⟨⟨_, rfl, by decide, by decide⟩, ⟨_, rfl, by decide, by decide⟩⟩

theorem witness_ConfigurationIsImmutable :
    (∃ s, load { defaultConfig with extMode := .extended } (some [0x12#8, 0x00#8]) = .next s) ∧
    (∃ t, exec .cls (vec .extended 0x00E0#16) = .next t) ∧ (∃ t, step (vec .extended 0x00E0#16) = .next t) :=
  ⟨⟨_, rfl⟩, ⟨_, rfl⟩, ⟨_, rfl⟩⟩

theorem witness_ExtModeAltersOnlySevenOpcodes : readsExtMode (.drw 0 1 5) = false ∧ readsExtMode (.addR 0 1) = false := by decide

theorem witness_ElementsNoOpcodeReadsDoNotMatter :
    (∀ x, Instr.skp 0 ≠ .stSt x) ∧ Instr.skp 0 ≠ .cls ∧ (∀ x y n, Instr.skp 0 ≠ .drw x y n) ∧ (∀ x, Instr.skp 0 ≠ .ldDt x) ∧
    (∀ x, Instr.skp 0 ≠ .stDt x) ∧ (∀ x, Instr.skp 0 ≠ .ldK x) := by decide

/-- Two states that differ in a dead entry. -/
theorem witness_DeadStackEntriesAreUnobservable :
    ∃ s t : State, s ≠ t ∧ SameButDeadEntries s t :=
  ⟨vec .original 0x2300#16, { vec .original 0x2300#16 with stack := (Vector.replicate 16 0#16).set 3 7#16 }, by decide, rfl,
    fun j hj => absurd hj (Nat.not_lt_zero _)⟩

/-- The vector state meets both invariants, and steps. -/
theorem witness_StepKeepsInvariants :
    (vec .original 0xD015#16).Inv ∧ ∃ t, step (vec .original 0xD015#16) = .next t :=
  ⟨⟨by decide, by decide, by decide, by decide, by decide, by decide, by decide, by decide⟩, ⟨_, rfl⟩⟩

theorem witness_StepKeepsPcBound :
    (vec .original 0xBFFF#16).PcInv ∧ ∃ t, step (vec .original 0xBFFF#16) = .next t :=
  ⟨⟨by decide, by decide⟩, ⟨_, rfl⟩⟩

theorem witness_ReachableStatesMeetInvariants : ∃ s, Reachable s ∧ s.hostInputs ≠ [] :=
  ⟨_, Reachable.start (c := defaultConfig) (rom := some [0x12#8, 0x00#8]) rfl [[.keys 1#16]], by decide⟩

/-- The first address above the font and the last of memory. -/
theorem witness_ResetValues : (80 ≤ 80 ∧ 80 < 4096) ∧ (80 ≤ 4095 ∧ 4095 < 4096) := by decide

/-- The longest ROM that fits, the shortest that does not. -/
theorem witness_LoadPlacesRomAndFont : defaultConfig.legal = true ∧ (List.replicate 3584 0xFF#8).length ≤ 3584 :=
  ⟨by decide, List.length_replicate.le⟩

theorem witness_LongRomIsRejected : defaultConfig.legal = true ∧ 3584 < (List.replicate 3585 0xFF#8).length :=
  ⟨by decide, Nat.lt_of_lt_of_eq (by decide) List.length_replicate.symm⟩

end Sys2Proof.Tests
end

section
/-! SUPPORT. What only the host side writes (R15, R29, R30, R32): every instruction keeps it, by the shape of its writes. -/

namespace Sys2Proof.Machine

/-- `t` holds in the elements that belong to the host and the scheduler what `s` holds in them: the configuration, the
tag, the key levels, batch_count, the waiting events and the host's schedule. -/
def HostElementsKept (s t : State) : Prop :=
  t.cfg = s.cfg ∧ t.execState = s.execState ∧ t.keys = s.keys ∧ t.batchCount = s.batchCount ∧
  t.pendingEvents = s.pendingEvents ∧ t.hostInputs = s.hostInputs

theorem HostElementsKept.refl (s : State) : HostElementsKept s s := ⟨rfl, rfl, rfl, rfl, rfl, rfl⟩

theorem HostElementsKept.skipIf (s : State) (c : Bool) : HostElementsKept s (s.skipIf c) := by
  rw [State.skipIf_eq]
  exact .refl s

theorem HostElementsKept.clearFlagInOriginal (s : State) : HostElementsKept s s.clearFlagInOriginal := by
  rcases s.clearFlagInOriginal_cases with ⟨-, h⟩ | ⟨-, h⟩ <;> rw [h] <;> exact .refl s

theorem HostElementsKept.storeRegs (base : Nat) (rs : List Reg) (s : State) :
    HostElementsKept s (storeRegs base rs s) := by
  rw [storeRegs_eq]
  exact .refl s

theorem HostElementsKept.loadRegs (base : Nat) (rs : List Reg) (s : State) :
    HostElementsKept s (loadRegs base rs s) := by
  rw [loadRegs_eq]
  exact .refl s

theorem State.push_keepsHostElements {s t : State} {w : Word} (h : s.push w = .next t) : HostElementsKept s t := by
  rcases s.push_cases w with ⟨-, hf⟩ | ⟨_, -, hn⟩
  · cases hf.symm.trans h
  · cases hn.symm.trans h
    exact .refl s

theorem State.popPc_keepsHostElements {s t : State} (h : s.popPc = .next t) : HostElementsKept s t := by
  rcases s.popPc_cases with ⟨-, hf⟩ | ⟨_, -, hn⟩
  · cases hf.symm.trans h
  · cases hn.symm.trans h
    exact .refl s

/-- If an instruction with a key operand answers a next state, the operand named a key (R131). -/
theorem withKey_eq_next {b : Byte} {k : Key → Result} {t : State} (h : withKey b k = .next t) :
    ∃ q : Key, q.val = b.toNat ∧ k q = .next t := by
  rcases withKey_cases b k with ⟨-, hf⟩ | ⟨hb, hk⟩
  · cases hf.symm.trans h
  · exact ⟨⟨b.toNat, hb⟩, rfl, hk.symm.trans h⟩

/-- Each phase of the key wait writes at most the latch, pc and V[x] (R134). -/
theorem execLdK_keepsHostElements {x : Reg} {s t : State} (h : execLdK x s = .next t) : HostElementsKept s t := by
  unfold execLdK at h
  split at h
  · split at h <;> cases h <;> exact .refl s
  · split at h <;> cases h <;> exact .refl s

/-- No instruction writes an element of the host's side: the writes it makes are to memory, registers, pc, the stack, the
timers, the display or the key latch (R15, R29, R30, R32). -/
theorem exec_keepsHostElements {i : Instr} {s t : State} (h : exec i s = .next t) : HostElementsKept s t := by
  cases i with
  | ret => exact State.popPc_keepsHostElements h
  | call nnn =>
    obtain ⟨u, hu, ht⟩ := andThen_eq_next h
    cases ht
    exact (State.push_keepsHostElements hu : HostElementsKept s u)
  | seI _ _ | sneI _ _ | seR _ _ | sneR _ _ =>
    cases h
    exact .skipIf s _
  | or _ _ | and _ _ | xor _ _ =>
    cases h
    exact .clearFlagInOriginal (s.setV _ _)
  | skp _ | sknp _ =>
    simp only [exec, execSkp, execSknp] at h
    obtain ⟨q, -, hq⟩ := withKey_eq_next h
    cases hq
    exact .skipIf s _
  | ldK x => exact execLdK_keepsHostElements h
  | drw _ _ _ | bcd _ =>
    obtain ⟨-, hk⟩ := checkRange_eq_next h
    cases hk
    exact .refl s
  | stm x =>
    obtain ⟨-, hk⟩ := checkRange_eq_next h
    cases hk
    exact .storeRegs s.dataBase (regsUpTo x) s
  | ldm x =>
    obtain ⟨-, hk⟩ := checkRange_eq_next h
    cases hk
    exact .loadRegs s.dataBase (regsUpTo x) s
  | _ =>
    cases h
    exact .refl s

/-- Settles O48: every write of an instruction is to an element outside the host's side. -/
theorem noInstructionActsForTheHost : Obligations.NoInstructionActsForTheHost :=
  fun _ _ _ h => exec_keepsHostElements h

end Sys2Proof.Machine
end

section
/-! SUPPORT. The configuration is sampled at reset (R15): what each part of a step does to it, which is nothing. -/

namespace Sys2Proof.Machine

/-- Load keeps the configuration it was given: it builds the initial state with it and copies bytes to memory (R180). -/
theorem load_cfg {c : Config} {rom : Option (List Byte)} {s : State} (h : load c rom = .next s) : s.cfg = c := by
  unfold load at h
  split at h
  · cases h
  · split at h
    · cases h
    · split at h
      · cases h
      · cases h
        rw [copyBytes_eq]
        rfl

theorem exec_cfg {i : Instr} {s t : State} (h : exec i s = .next t) : t.cfg = s.cfg :=
  (exec_keepsHostElements h).1

@[simp] theorem tick_cfg (s : State) : (tick s).cfg = s.cfg := rfl

@[simp] theorem arrive_cfg (s : State) (x : HostInput) : (arrive s x).cfg = s.cfg := by
  obtain ⟨k, e, l, h⟩ := arrive_sets s x
  rw [h]
  rfl

@[simp] theorem takeHostInputs_cfg (s : State) : (takeHostInputs s).cfg = s.cfg := by
  obtain ⟨k, e, l, h⟩ := takeHostInputs_sets s
  rw [h]
  rfl

@[simp] theorem endInstr_cfg (s : State) : (endInstr s).cfg = s.cfg := by
  rcases endInstr_cases s with ⟨-, h⟩ | ⟨-, h⟩
  · rw [h]
    rfl
  · rw [h, endIteration_eq]

theorem step_cfg {s t : State} (h : step s = .next t) : t.cfg = s.cfg := by
  rcases step_eq_next h with ⟨-, rfl⟩ | ⟨-, -, rfl⟩ | ⟨-, -, -, u, hu, rfl⟩
  · rfl
  · exact takeHostInputs_cfg s
  · rw [endInstr_cfg, exec_cfg hu, State.setPc_cfg, takeHostInputs_cfg]

/-- Settles O49: load builds the state with the configuration given, and no part of a step writes it. -/
theorem configurationIsImmutable : Obligations.ConfigurationIsImmutable :=
  ⟨fun _ _ _ => load_cfg, fun _ _ _ => exec_cfg, tick_cfg, arrive_cfg, fun _ _ => step_cfg⟩

end Sys2Proof.Machine
end

section
/-! SUPPORT. The mode bit (R13): replacing it before an instruction that does not read it, or after, is the same. -/

namespace Sys2Proof.Machine

theorem andThen_assoc (o : Result) (f g : State → Result) :
    andThen (andThen o f) g = andThen o fun s => andThen (f s) g := by
  cases o <;> rfl

/-- What follows a checked access is part of what the check guards. -/
theorem andThen_checkRange (base len : Nat) (k : Result) (f : State → Result) :
    andThen (checkRange base len k) f = checkRange base len (andThen k f) := by
  unfold checkRange
  split <;> rfl

/-- What follows a key operand is part of what the operand guards. -/
theorem andThen_withKey (b : Byte) (k : Key → Result) (f : State → Result) :
    andThen (withKey b k) f = withKey b fun q => andThen (k q) f := by
  unfold withKey
  split <;> rfl

/-- EXT_MODE <- m, everything else unchanged (R13). -/
def State.setExtMode (s : State) (m : ExtMode) : State := { s with cfg := { s.cfg with extMode := m } }

theorem State.skipIf_setExtMode (s : State) (m : ExtMode) (c : Bool) :
    (s.setExtMode m).skipIf c = (s.skipIf c).setExtMode m := by
  cases c <;> rfl

theorem State.push_setExtMode (s : State) (m : ExtMode) (w : Word) :
    (s.setExtMode m).push w = andThen (s.push w) fun t => .next (t.setExtMode m) := by
  rw [State.push.eq_def s w, apply_dite (andThen · _)]
  rfl

theorem State.popPc_setExtMode (s : State) (m : ExtMode) :
    (s.setExtMode m).popPc = andThen s.popPc fun t => .next (t.setExtMode m) := by
  rw [State.popPc.eq_def s, apply_dite (andThen · _)]
  rfl

theorem execLdK_setExtMode (x : Reg) (s : State) (m : ExtMode) :
    execLdK x (s.setExtMode m) = andThen (execLdK x s) fun t => .next (t.setExtMode m) := by
  have hkey : (s.setExtMode m).pendingKey = s.pendingKey := rfl
  have hlow : (s.setExtMode m).lowestKeyDown = s.lowestKeyDown := rfl
  have hdown : ∀ k, (s.setExtMode m).keyDown k = s.keyDown k := fun _ => rfl
  unfold execLdK
  rw [hkey, hlow]
  cases s.pendingKey with
  | none => cases s.lowestKeyDown <;> rfl
  | some k =>
    simp only [hdown]
    cases s.keyDown k <;> rfl

/-- An instruction that does not read the mode bit does the same whatever it is (R13, R68). -/
theorem exec_setExtMode {i : Instr} (s : State) (m : ExtMode) (hi : readsExtMode i = false) :
    exec i (s.setExtMode m) = andThen (exec i s) fun t => .next (t.setExtMode m) := by
  cases i with
  | or _ _ | and _ _ | xor _ _ | shr _ _ | shl _ _ | stm _ | ldm _ => cases hi
  | ret => exact s.popPc_setExtMode m
  | call nnn =>
    simp only [exec, execCall, State.push_setExtMode, andThen_assoc]
    rfl
  | seI _ _ | sneI _ _ | seR _ _ | sneR _ _ => exact congrArg _ (s.skipIf_setExtMode m _)
  | skp _ | sknp _ =>
    simp only [exec, execSkp, execSknp, andThen_withKey, andThen_next, ← State.skipIf_setExtMode]
    rfl
  | ldK x => exact execLdK_setExtMode x s m
  | drw _ _ _ | bcd _ =>
    simp only [exec, execDrw, execBcd, andThen_checkRange]
    rfl
  | _ => rfl

/-- Settles O51: the instructions outside R13's seven neither read nor write the mode bit. -/
theorem extModeAltersOnlySevenOpcodes : Obligations.ExtModeAltersOnlySevenOpcodes :=
  fun _ s m hi => exec_setExtMode s m hi

end Sys2Proof.Machine
end

section
/-! SUPPORT. What an instruction can do, said once: it is a sequence of elementary writes, each to a component its rules
list (R20 to R31, R45, R53). Every instruction is taken apart here and nowhere else; that it leaves the other components
alone, and that it keeps the invariants, follow from what one write does. -/

namespace Sys2Proof.Machine

/-- One elementary write of an instruction that may write the components in `W`, with what the model checks before it:
a store is inside memory (R45), a push is below the capacity (R92), a pop is of an entry in use (R90), and a new display
has the configured shape if the old one has it (R80, R81). -/
inductive Write (W : Component → Prop) (s : State) : State → Prop where
  | reg (r : Reg) (b : Byte) (h : W (.reg r)) : Write W s (s.setV r b)
  | byte (a : Nat) (b : Byte) (ha : a < memSize) (h : W (.byte a)) : Write W s (s.writeByte a b)
  | index (w : Word) (h : W .index) : Write W s (s.setIndex w)
  | pc (w : Word) (h : W .pc) : Write W s (s.setPc w)
  | delay (b : Byte) (h : W .delayTimer) : Write W s (s.setDelay b)
  | sound (b : Byte) (h : W .soundTimer) : Write W s (s.setSound b)
  | redraw (b : Bool) (h : W .redrawFlag) : Write W s (s.setRedraw b)
  | keyLatch (p : Option Key) (h : W .keyLatch) : Write W s (s.setPendingKey p)
  | draw (h : W .randDraws) : Write W s s.countDraw
  | display (d : Display) (h : ∀ c : Component, c.isDisplay → W c)
      (hd : s.display.Rect s.cfg.displayW s.cfg.displayH → d.Rect s.cfg.displayW s.cfg.displayH) :
      Write W s (s.setDisplay d)
  | push (w : Word) (hsp : s.sp.val < 16) (hcap : s.sp.val < s.cfg.stackCapacity.toNat) (h : W .stackCursor)
      (he : W (.stackEntry ⟨s.sp.val, hsp⟩)) :
      Write W s { s with stack := s.stack.set s.sp.val w hsp, sp := ⟨s.sp.val + 1, by omega⟩ }
  | pop (w : Word) (hp : W .pc) (h : W .stackCursor) :
      Write W s { s with sp := ⟨s.sp.val - 1, by omega⟩, pc := w }

/-- Elementary writes to components in `W`, one after the other. -/
abbrev Writes (W : Component → Prop) : State → State → Prop := Relation.ReflTransGen (Write W)

variable {W : Component → Prop} {s t : State}

/-! ## The shared operations as sequences of writes -/

theorem Write.skipIf (h : W .pc) (c : Bool) : Write W s (s.skipIf c) := by
  rw [State.skipIf_eq]
  exact .pc _ h

/-- Mode 0 clears VF, mode 1 writes nothing (R103 to R105). -/
theorem Writes.clearFlagInOriginal (h : s.cfg.extMode = .original → W (.reg vF)) : Writes W s s.clearFlagInOriginal := by
  rcases s.clearFlagInOriginal_cases with ⟨hm, he⟩ | ⟨-, he⟩ <;> rw [he]
  exact .single (.reg _ _ (h hm))

/-- Mode 0 advances I, mode 1 keeps it (R124, R125). -/
theorem Writes.indexAfterMove (x : Reg) (ht : t.i = s.i) (h : s.cfg.extMode = .original → W .index) :
    Writes W t (t.setIndex (s.indexAfterMove x)) := by
  unfold State.indexAfterMove
  cases hm : s.cfg.extMode with
  | original => exact .single (.index _ (h hm))
  | extended =>
    rw [← ht]
    exact .refl

theorem Writes.storeRegs {base : Nat} : ∀ {rs : List Reg} {s : State},
    (∀ r ∈ rs, base + r.val < memSize ∧ W (.byte (base + r.val))) → Writes W s (storeRegs base rs s)
  | [], _, _ => .refl
  | r :: rs, s, h => by
    obtain ⟨ha, hw⟩ := h r List.mem_cons_self
    exact .head (.byte (base + r.val) (s.getV r) ha hw)
      (Writes.storeRegs fun q hq => h q (List.mem_cons_of_mem r hq))

theorem Writes.loadRegs {base : Nat} : ∀ {rs : List Reg} {s : State},
    (∀ r ∈ rs, W (.reg r)) → Writes W s (loadRegs base rs s)
  | [], _, _ => .refl
  | r :: _, _, h => .head (.reg r _ (h r List.mem_cons_self))
      (Writes.loadRegs fun q hq => h q (List.mem_cons_of_mem r hq))

/-! ## The instructions as sequences of writes -/

/-- RET takes the top entry into pc and moves the cursor (R90). -/
theorem execRet_writes (h : execRet s = .next t) : Writes (mayWrite s .ret) s t := by
  rcases s.popPc_cases with ⟨-, hf⟩ | ⟨_, -, hn⟩
  · cases hf.symm.trans h
  · cases hn.symm.trans h
    exact .single (.pop _ (.inl rfl) (.inr rfl))

/-- CALL pushes and then jumps (R92). -/
theorem execCall_writes {nnn : Addr12} (h : execCall nnn s = .next t) : Writes (mayWrite s (.call nnn)) s t := by
  obtain ⟨u, hu, ht⟩ := andThen_eq_next h
  cases ht
  rcases s.push_cases s.pc with ⟨-, hf⟩ | ⟨hsp, hcap, hn⟩
  · cases hf.symm.trans hu
  · cases hn.symm.trans hu
    exact .tail (.single (.push _ hsp hcap (.inr (.inl rfl)) (.inr (.inr ⟨_, rfl, rfl⟩)))) (.pc _ (.inl rfl))

/-- DRW writes VF, the display and redraw_needed (R81). -/
theorem execDrw_writes {x y : Reg} {n : Fin 16} (h : execDrw x y n s = .next t) :
    Writes (mayWrite s (.drw x y n)) s t := by
  obtain ⟨-, hk⟩ := checkRange_eq_next h
  cases hk
  exact .tail (.tail (.single (.reg _ _ (.inl rfl)))
    (.display _ (fun _ hc => .inr (.inl hc)) fun hd => drawSprite_rect hd _ _ _ _ _ _)) (.redraw _ (.inr (.inr rfl)))

/-- BCD stores three bytes from I up (R123). -/
theorem execBcd_writes {x : Reg} (h : execBcd x s = .next t) : Writes (mayWrite s (.bcd x)) s t := by
  obtain ⟨hr, hk⟩ := checkRange_eq_next h
  cases hk
  have inside : ∀ r, r < 3 → s.dataBase + r < memSize := by
    unfold memSize
    omega
  exact .tail (.tail (.single (.byte _ _ (inside 0 (by decide)) ⟨0, by decide, rfl⟩))
    (.byte _ _ (inside 1 (by decide)) ⟨1, by decide, rfl⟩)) (.byte _ _ (inside 2 (by decide)) ⟨2, by decide, rfl⟩)

/-- STM stores V[0] to V[X] from I up, then may advance I (R124). -/
theorem execStm_writes {x : Reg} (h : execStm x s = .next t) : Writes (mayWrite s (.stm x)) s t := by
  obtain ⟨hr, hk⟩ := checkRange_eq_next h
  cases hk
  refine Relation.ReflTransGen.trans (Writes.storeRegs fun r hmem => ?_)
    (Writes.indexAfterMove x (by rw [storeRegs_eq]) fun hm => .inr ⟨hm, rfl⟩)
  have hle := (mem_regsUpTo x r).1 hmem
  exact ⟨by unfold memSize; omega, .inl ⟨r.val, hle, rfl⟩⟩

/-- LDM loads V[0] to V[X] from I up, then may advance I (R125). -/
theorem execLdm_writes {x : Reg} (h : execLdm x s = .next t) : Writes (mayWrite s (.ldm x)) s t := by
  obtain ⟨-, hk⟩ := checkRange_eq_next h
  cases hk
  exact Relation.ReflTransGen.trans
    (Writes.loadRegs fun r hmem => .inl ⟨r, (mem_regsUpTo x r).1 hmem, rfl⟩)
    (Writes.indexAfterMove x (by rw [loadRegs_eq]) fun hm => .inr ⟨hm, rfl⟩)

/-- LD.K latches and stalls, stalls, or commits, which it does only when the latched key is up (R134). -/
theorem execLdK_writes {x : Reg} (h : execLdK x s = .next t) : Writes (mayWrite s (.ldK x)) s t := by
  unfold execLdK at h
  split at h
  · split at h <;> cases h
    · exact .tail (.single (.keyLatch _ (.inr (.inl rfl)))) (.pc _ (.inl rfl))
    · exact .single (.pc _ (.inl rfl))
  · rename_i k hk
    split at h <;> cases h
    · exact .single (.pc _ (.inl rfl))
    · rename_i hup
      exact .tail (.single (.reg _ _ (.inr (.inr ⟨⟨k, hk, by simpa using hup⟩, rfl⟩))))
        (.keyLatch _ (.inr (.inl rfl)))

/-- Whatever an instruction does, it does by elementary writes to the components its rules list. -/
theorem exec_writes {i : Instr} (h : exec i s = .next t) : Writes (mayWrite s i) s t := by
  cases i with
  | cls =>
    cases h
    exact .tail (.single (.display _ (fun _ hc => .inl hc) fun _ => blankDisplay_rect _ _)) (.redraw _ (.inr rfl))
  | ret => exact execRet_writes h
  | call nnn => exact execCall_writes h
  | jp _ | jpV0 _ =>
    cases h
    exact .single (.pc _ rfl)
  | seI _ _ | sneI _ _ | seR _ _ | sneR _ _ =>
    cases h
    refine .single (.skipIf ?_ _)
    rfl
  | skp _ | sknp _ =>
    simp only [exec, execSkp, execSknp] at h
    obtain ⟨q, -, hq⟩ := withKey_eq_next h
    cases hq
    refine .single (.skipIf ?_ _)
    rfl
  | ldI _ _ | addI _ _ | ldR _ _ | ldDt _ =>
    cases h
    exact .single (.reg _ _ rfl)
  | or _ _ | and _ _ | xor _ _ =>
    cases h
    exact .head (.reg _ _ (.inl rfl)) (Writes.clearFlagInOriginal fun hm => .inr ⟨hm, rfl⟩)
  | addR _ _ | sub _ _ | subn _ _ =>
    cases h
    exact .tail (.single (.reg _ _ (.inr rfl))) (.reg _ _ (.inl rfl))
  | shr _ _ | shl _ _ =>
    cases h
    exact .tail (.single (.reg _ _ (.inl rfl))) (.reg _ _ (.inr rfl))
  | ldA _ | addA _ | ldF _ =>
    cases h
    exact .single (.index _ rfl)
  | rnd _ _ =>
    cases h
    exact .tail (.single (.reg _ _ (.inl rfl))) (.draw (.inr rfl))
  | drw _ _ _ => exact execDrw_writes h
  | ldK _ => exact execLdK_writes h
  | stDt _ =>
    cases h
    exact .single (.delay _ rfl)
  | stSt _ =>
    cases h
    exact .single (.sound _ rfl)
  | bcd _ => exact execBcd_writes h
  | stm _ => exact execStm_writes h
  | ldm _ => exact execLdm_writes h
  | nopU _ =>
    cases h
    exact .refl

/-! ## The frame of a sequence of writes -/

theorem Frame.refl (s : State) (W : Component → Prop) : Frame s s W := fun c _ => by cases c <;> rfl

theorem Frame.trans {u : State} (h : Frame s t W) (h' : Frame t u W) : Frame s u W := fun c hc => by
  have h₁ := h c hc
  have h₂ := h' c hc
  cases c <;> exact Eq.trans h₂ h₁

/-- One write leaves every component outside `W` unchanged. -/
theorem Write.frame (h : Write W s t) : Frame s t W := by
  intro c hc
  cases h with
  | reg r b h =>
    cases c with
    | reg q =>
      have hq : q ≠ r := fun e => hc (e ▸ h)
      simp [Component.same, hq]
    | _ => rfl
  | byte a b _ h =>
    cases c with
    | byte x =>
      have hx : x ≠ a := fun e => hc (e ▸ h)
      simp [Component.same, hx]
    | _ => rfl
  | display d h _ =>
    cases c with
    | displayBuffer | cell x y => exact absurd (h _ (by trivial)) hc
    | _ => rfl
  | push w hsp _ h he =>
    cases c with
    | stackCursor => exact absurd h hc
    | stackEntry j =>
      have hj : s.sp.val ≠ j.val := fun e => hc ((Fin.ext e : (⟨s.sp.val, hsp⟩ : Fin 16) = j) ▸ he)
      simp [Component.same, Vector.getElem_set_ne, hj]
    | _ => rfl
  | pop w hp h =>
    cases c with
    | pc => exact absurd hp hc
    | stackCursor => exact absurd h hc
    | _ => rfl
  | index _ h =>
    cases c with
    | index => exact absurd h hc
    | _ => rfl
  | pc _ h =>
    cases c with
    | pc => exact absurd h hc
    | _ => rfl
  | delay _ h =>
    cases c with
    | delayTimer => exact absurd h hc
    | _ => rfl
  | sound _ h =>
    cases c with
    | soundTimer => exact absurd h hc
    | _ => rfl
  | redraw _ h =>
    cases c with
    | redrawFlag => exact absurd h hc
    | _ => rfl
  | keyLatch _ h =>
    cases c with
    | keyLatch => exact absurd h hc
    | _ => rfl
  | draw h =>
    cases c with
    | randDraws => exact absurd h hc
    | _ => rfl

theorem Writes.frame (h : Writes W s t) : Frame s t W := by
  induction h with
  | refl => exact Frame.refl s W
  | tail _ hw ih => exact ih.trans hw.frame

/-- Settles O46: an instruction is a sequence of writes to the components its rules list. -/
theorem instructionsWriteOnlyTheirOwn : Obligations.InstructionsWriteOnlyTheirOwn :=
  fun _ _ _ h => (exec_writes h).frame

end Sys2Proof.Machine
end

section
/-! SUPPORT. The flag (R21): VF is a component like any other, and `mayWrite` names it only where R21 does. -/

namespace Sys2Proof.Machine

/-- An instruction that may write VF writes it as a flag or names it as its destination (R21). -/
theorem writesFlag_or_namesFlag {i : Instr} {s : State} (h : mayWrite s i (.reg vF)) :
    writesFlag s.cfg.extMode i = true ∨ namesFlagAsDestination i = true := by
  cases i with
  | addR _ _ | sub _ _ | shr _ _ | subn _ _ | shl _ _ | drw _ _ _ => exact .inl rfl
  | or _ _ | and _ _ | xor _ _ =>
    rcases h with h | ⟨hm, -⟩
    · cases h
      exact .inr rfl
    · rw [hm]
      exact .inl rfl
  | ldI _ _ | addI _ _ | ldR _ _ | ldDt _ =>
    cases h
    exact .inr rfl
  | rnd _ _ =>
    obtain h | h := h <;> cases h
    exact .inr rfl
  | ldK _ =>
    obtain h | h | ⟨-, h⟩ := h <;> cases h
    exact .inr rfl
  | ldm x =>
    obtain ⟨r, hr, h⟩ | ⟨-, h⟩ := h <;> cases h
    have hx : x = vF := Fin.le_antisymm (Fin.le_last x) hr
    exact .inr (by simp [namesFlagAsDestination, hx])
  | cls | call _ | stm _ => simp [mayWrite, Component.isDisplay] at h
  | _ => simp [mayWrite] at h

/-- Settles O47: by the frame of the instruction, since VF is not among the components it may write. -/
theorem flagWrittenOnlyByListedOpcodes : Obligations.FlagWrittenOnlyByListedOpcodes := by
  intro i s t h hflag hdest
  refine instructionsWriteOnlyTheirOwn i s t h (.reg vF) fun hw => ?_
  rcases writesFlag_or_namesFlag hw with hf | hd
  · exact absurd hf (by simp [hflag])
  · exact absurd hd (by simp [hdest])

end Sys2Proof.Machine
end

section
/-! SUPPORT. Elements an instruction does not read (R24 to R26, R28, R30 to R32): laying other values over them before it
or after it is the same. -/

namespace Sys2Proof.Machine

/-- New values for some of the elements that few instructions or none read; an element given `none` keeps its own. -/
structure Overlay where
  stack : Option (Vector Word 16) := none
  dt : Option Byte := none
  st : Option Byte := none
  redrawNeeded : Option Bool := none
  execState : Option ExecState := none
  pendingKey : Option (Option Key) := none
  batchCount : Option Nat := none
  pendingEvents : Option (List HostEvent) := none
  hostInputs : Option (List (List HostInput)) := none

/-- The state with the overlay's values in place of its own. -/
def State.overlay (s : State) (o : Overlay) : State :=
  { s with
    stack := o.stack.getD s.stack
    dt := o.dt.getD s.dt
    st := o.st.getD s.st
    redrawNeeded := o.redrawNeeded.getD s.redrawNeeded
    execState := o.execState.getD s.execState
    pendingKey := o.pendingKey.getD s.pendingKey
    batchCount := o.batchCount.getD s.batchCount
    pendingEvents := o.pendingEvents.getD s.pendingEvents
    hostInputs := o.hostInputs.getD s.hostInputs }

/-- The instruction neither reads nor writes an element that the overlay gives a value. -/
structure Overlay.IgnoredBy (o : Overlay) (i : Instr) : Prop where
  /-- RET and CALL use the stack (R24). -/
  stack : o.stack = none ∨ (i ≠ .ret ∧ ∀ nnn, i ≠ .call nnn)
  /-- FX07 reads DT and FX15 writes it (R25). -/
  delay : o.dt = none ∨ ((∀ x, i ≠ .ldDt x) ∧ ∀ x, i ≠ .stDt x)
  /-- FX18 writes ST (R26). -/
  sound : o.st = none ∨ ∀ x, i ≠ .stSt x
  /-- 00E0 and DXYN write redraw_needed (R28). -/
  redraw : o.redrawNeeded = none ∨ (i ≠ .cls ∧ ∀ x y n, i ≠ .drw x y n)
  /-- FX0A uses the latch (R31). -/
  keyLatch : o.pendingKey = none ∨ ∀ x, i ≠ .ldK x

theorem State.skipIf_overlay (s : State) (o : Overlay) (c : Bool) : (s.overlay o).skipIf c = (s.skipIf c).overlay o := by
  cases c <;> rfl

theorem State.clearFlagInOriginal_overlay (s : State) (o : Overlay) :
    (s.overlay o).clearFlagInOriginal = s.clearFlagInOriginal.overlay o := by
  have hmode : (s.overlay o).cfg = s.cfg := rfl
  unfold State.clearFlagInOriginal
  rw [hmode]
  cases s.cfg.extMode <;> rfl

theorem storeRegs_overlay (base : Nat) (o : Overlay) : ∀ (rs : List Reg) (s : State),
    storeRegs base rs (s.overlay o) = (storeRegs base rs s).overlay o
  | [], _ => rfl
  | r :: rs, s => storeRegs_overlay base o rs (s.writeByte (base + r.val) (s.getV r))

theorem loadRegs_overlay (base : Nat) (o : Overlay) : ∀ (rs : List Reg) (s : State),
    loadRegs base rs (s.overlay o) = (loadRegs base rs s).overlay o
  | [], _ => rfl
  | r :: rs, s => loadRegs_overlay base o rs (s.setV r (s.readByte (base + r.val)))

theorem State.dt_overlay (s : State) {o : Overlay} (ho : o.dt = none) : (s.overlay o).dt = s.dt := by
  simp [State.overlay, ho]

theorem State.setDelay_overlay (s : State) {o : Overlay} (ho : o.dt = none) (b : Byte) :
    (s.overlay o).setDelay b = (s.setDelay b).overlay o := by
  simp [State.overlay, State.setDelay, ho]

theorem State.setSound_overlay (s : State) {o : Overlay} (ho : o.st = none) (b : Byte) :
    (s.overlay o).setSound b = (s.setSound b).overlay o := by
  simp [State.overlay, State.setSound, ho]

theorem State.setRedraw_overlay (s : State) {o : Overlay} (ho : o.redrawNeeded = none) (b : Bool) :
    (s.overlay o).setRedraw b = (s.setRedraw b).overlay o := by
  simp [State.overlay, State.setRedraw, ho]

theorem State.push_overlay (s : State) {o : Overlay} (ho : o.stack = none) (w : Word) :
    (s.overlay o).push w = andThen (s.push w) fun t => .next (t.overlay o) := by
  cases o
  cases ho
  rw [State.push.eq_def s w, apply_dite (andThen · _)]
  rfl

theorem State.popPc_overlay (s : State) {o : Overlay} (ho : o.stack = none) :
    (s.overlay o).popPc = andThen s.popPc fun t => .next (t.overlay o) := by
  cases o
  cases ho
  rw [State.popPc.eq_def s, apply_dite (andThen · _)]
  rfl

theorem execLdK_overlay (x : Reg) (s : State) {o : Overlay} (ho : o.pendingKey = none) :
    execLdK x (s.overlay o) = andThen (execLdK x s) fun t => .next (t.overlay o) := by
  have hkey : (s.overlay o).pendingKey = s.pendingKey := by simp [State.overlay, ho]
  have hlow : (s.overlay o).lowestKeyDown = s.lowestKeyDown := rfl
  have hdown : ∀ k, (s.overlay o).keyDown k = s.keyDown k := fun _ => rfl
  unfold execLdK
  rw [hkey, hlow]
  cases o
  cases ho
  cases s.pendingKey with
  | none => cases s.lowestKeyDown <;> rfl
  | some k =>
    simp only [hdown]
    cases s.keyDown k <;> rfl

/-- An instruction does the same, up to the overlay, whatever the elements it ignores hold. -/
theorem exec_overlay {i : Instr} {o : Overlay} (s : State) (ho : o.IgnoredBy i) :
    exec i (s.overlay o) = andThen (exec i s) fun t => .next (t.overlay o) := by
  cases i with
  | ret => exact s.popPc_overlay (ho.stack.resolve_right fun h => h.1 rfl)
  | call nnn =>
    simp only [exec, execCall, State.push_overlay _ (ho.stack.resolve_right fun h => h.2 nnn rfl), andThen_assoc]
    rfl
  | seI _ _ | sneI _ _ | seR _ _ | sneR _ _ => exact congrArg _ (s.skipIf_overlay o _)
  | skp _ | sknp _ =>
    simp only [exec, execSkp, execSknp, andThen_withKey, andThen_next, ← State.skipIf_overlay]
    rfl
  | or _ _ | and _ _ | xor _ _ => exact congrArg _ ((s.setV _ _).clearFlagInOriginal_overlay o)
  | ldK x => exact execLdK_overlay x s (ho.keyLatch.resolve_right fun h => h x rfl)
  | cls =>
    have hredraw := ho.redraw.resolve_right fun h => h.1 rfl
    simp only [exec, execCls, andThen_next, ← State.setRedraw_overlay _ hredraw]
    rfl
  | drw x y n =>
    have hredraw := ho.redraw.resolve_right fun h => h.2 x y n rfl
    simp only [exec, execDrw, andThen_checkRange, andThen_next, ← State.setRedraw_overlay _ hredraw]
    rfl
  | ldDt x =>
    simp only [exec, execLdDt, andThen_next, s.dt_overlay (ho.delay.resolve_right fun h => h.1 x rfl)]
    rfl
  | stDt x => exact congrArg Host.Outcome.next (s.setDelay_overlay (ho.delay.resolve_right fun h => h.2 x rfl) (s.getV x))
  | stSt x => exact congrArg Host.Outcome.next (s.setSound_overlay (ho.sound.resolve_right fun h => h x rfl) (s.getV x))
  | bcd _ =>
    simp only [exec, execBcd, andThen_checkRange]
    rfl
  | stm x =>
    simp only [exec, execStm, andThen_checkRange, storeRegs_overlay]
    rfl
  | ldm x =>
    simp only [exec, execLdm, andThen_checkRange, loadRegs_overlay]
    rfl
  | _ => rfl

/-- Settles O52: each clause lays one value over an element that the instruction ignores. -/
theorem elementsNoOpcodeReadsDoNotMatter : Obligations.ElementsNoOpcodeReadsDoNotMatter := fun _ s =>
  ⟨fun hi b => exec_overlay (o := { st := some b }) s ⟨.inl rfl, .inl rfl, .inr hi, .inl rfl, .inl rfl⟩,
   fun hcls hdrw b => exec_overlay (o := { redrawNeeded := some b }) s
     ⟨.inl rfl, .inl rfl, .inl rfl, .inr ⟨hcls, hdrw⟩, .inl rfl⟩,
   fun n => exec_overlay (o := { batchCount := some n }) s ⟨.inl rfl, .inl rfl, .inl rfl, .inl rfl, .inl rfl⟩,
   fun e => exec_overlay (o := { execState := some e }) s ⟨.inl rfl, .inl rfl, .inl rfl, .inl rfl, .inl rfl⟩,
   fun l => exec_overlay (o := { pendingEvents := some l }) s ⟨.inl rfl, .inl rfl, .inl rfl, .inl rfl, .inl rfl⟩,
   fun l => exec_overlay (o := { hostInputs := some l }) s ⟨.inl rfl, .inl rfl, .inl rfl, .inl rfl, .inl rfl⟩,
   fun hld hst b => exec_overlay (o := { dt := some b }) s ⟨.inl rfl, .inr ⟨hld, hst⟩, .inl rfl, .inl rfl, .inl rfl⟩,
   fun hi p => exec_overlay (o := { pendingKey := some p }) s ⟨.inl rfl, .inl rfl, .inl rfl, .inl rfl, .inr hi⟩⟩

end Sys2Proof.Machine
end

section
/-! SUPPORT. Dead stack entries (R24): every part of a step takes two machines that differ only in them to two such
machines. -/

namespace Sys2Proof.Machine

/-- Replace the stack entries, the cursor unchanged (R24). -/
def State.setStack (s : State) (S : Vector Word 16) : State := { s with stack := S }

variable {s t : State}

theorem SameButDeadEntries.setStack {S : Vector Word 16} (h : ∀ j : Fin 16, j.val < s.sp.val → S[j.val] = s.stack[j.val]) :
    SameButDeadEntries s (s.setStack S) := ⟨rfl, h⟩

/-- What does not depend on the entries, and leaves them and the cursor alone, keeps the relation. -/
theorem SameButDeadEntries.map {f : State → State} (hf : ∀ s S, f (s.setStack S) = (f s).setStack S)
    (hstack : ∀ s, (f s).stack = s.stack) (hsp : ∀ s, (f s).sp = s.sp) (h : SameButDeadEntries s t) :
    SameButDeadEntries (f s) (f t) := by
  obtain ⟨ht, hlive⟩ := h
  rw [ht, show ({ s with stack := t.stack } : State) = s.setStack t.stack from rfl, hf]
  exact .setStack fun j hj => by
    rw [hstack]
    exact hlive j (hsp s ▸ hj)

/-! ## The host's inputs and the end of an instruction -/

theorem actOn_setStack (S : Vector Word 16) : ∀ (es : List HostEvent) (s : State),
    actOn es (s.setStack S) = (actOn es s).setStack S
  | [], _ => rfl
  | e :: es, s => actOn_setStack S es (s.setExecState (ExecState.after e s.execState))

theorem arrive_setStack (s : State) (S : Vector Word 16) (x : HostInput) :
    arrive (s.setStack S) x = (arrive s x).setStack S := by
  cases x with
  | keys k => rfl
  | event e =>
    rw [arrive, arrive, apply_ite (State.setStack · S)]
    rfl

theorem arriveAll_setStack (S : Vector Word 16) : ∀ (xs : List HostInput) (s : State),
    arriveAll xs (s.setStack S) = (arriveAll xs s).setStack S
  | [], _ => rfl
  | x :: xs, s => by
    simp only [arriveAll, arrive_setStack]
    exact arriveAll_setStack S xs (arrive s x)

theorem takeHostInputs_setStack (s : State) (S : Vector Word 16) :
    takeHostInputs (s.setStack S) = (takeHostInputs s).setStack S := by
  cases h : s.hostInputs with
  | nil => rw [takeHostInputs_of_nil h, takeHostInputs_of_nil (s := s.setStack S) h]
  | cons now later =>
    rw [takeHostInputs_of_cons h, takeHostInputs_of_cons (s := s.setStack S) h]
    exact arriveAll_setStack S now (s.setHostInputs later)

@[simp] theorem takeHostInputs_stack (s : State) : (takeHostInputs s).stack = s.stack := by
  obtain ⟨k, e, l, h⟩ := takeHostInputs_sets s
  rw [h]
  rfl

@[simp] theorem takeHostInputs_sp (s : State) : (takeHostInputs s).sp = s.sp := by
  obtain ⟨k, e, l, h⟩ := takeHostInputs_sets s
  rw [h]
  rfl

theorem SameButDeadEntries.takeHostInputs (h : SameButDeadEntries s t) :
    SameButDeadEntries (takeHostInputs s) (takeHostInputs t) :=
  h.map takeHostInputs_setStack takeHostInputs_stack takeHostInputs_sp

theorem endIteration_setStack (s : State) (S : Vector Word 16) :
    endIteration (s.setStack S) = (endIteration s).setStack S := by
  rw [endIteration_eq, endIteration_eq, show (s.setStack S).pendingEvents = s.pendingEvents from rfl, actOn_setStack]
  rfl

theorem endInstr_setStack (s : State) (S : Vector Word 16) : endInstr (s.setStack S) = (endInstr s).setStack S := by
  unfold endInstr
  rw [endIteration_setStack, apply_ite (State.setStack · S)]
  rfl

@[simp] theorem endInstr_stack (s : State) : (endInstr s).stack = s.stack := by
  rcases endInstr_cases s with ⟨-, h⟩ | ⟨-, h⟩ <;> simp [h, endIteration_eq]

@[simp] theorem endInstr_sp (s : State) : (endInstr s).sp = s.sp := by
  rcases endInstr_cases s with ⟨-, h⟩ | ⟨-, h⟩ <;> simp [h, endIteration_eq]

theorem SameButDeadEntries.endInstr (h : SameButDeadEntries s t) : SameButDeadEntries (endInstr s) (endInstr t) :=
  h.map endInstr_setStack endInstr_stack endInstr_sp

/-! ## The instructions -/

/-- Only RET and CALL may write the cursor or an entry (R24). -/
theorem not_mayWrite_stack {i : Instr} (hret : i ≠ .ret) (hcall : ∀ nnn, i ≠ .call nnn) :
    ¬ mayWrite s i .stackCursor ∧ ∀ j, ¬ mayWrite s i (.stackEntry j) := by
  cases i with
  | ret => exact absurd rfl hret
  | call nnn => exact absurd rfl (hcall nnn)
  | _ => simp [mayWrite, Component.isDisplay]

theorem exec_keepsStack {i : Instr} (hret : i ≠ .ret) (hcall : ∀ nnn, i ≠ .call nnn) (h : exec i s = .next t) :
    t.sp = s.sp ∧ t.stack = s.stack := by
  have hframe := instructionsWriteOnlyTheirOwn i s t h
  obtain ⟨hcursor, hentry⟩ := not_mayWrite_stack (s := s) hret hcall
  exact ⟨hframe .stackCursor hcursor, Vector.ext fun j hj => hframe (.stackEntry ⟨j, hj⟩) (hentry _)⟩

/-- An instruction that does not use the stack passes other entries through (R24). -/
theorem exec_agrees_of_stack_unused {i : Instr} (hret : i ≠ .ret) (hcall : ∀ nnn, i ≠ .call nnn)
    (h : SameButDeadEntries s t) : OutcomesAgree (exec i s) (exec i t) := by
  obtain ⟨ht, hlive⟩ := h
  have hover : exec i t = andThen (exec i s) fun u => .next (u.setStack t.stack) := by
    rw [ht]
    exact exec_overlay (o := { stack := some t.stack }) s ⟨.inr ⟨hret, hcall⟩, .inl rfl, .inl rfl, .inl rfl, .inl rfl⟩
  rw [hover]
  cases he : exec i s with
  | fault f => rfl
  | refused r => rfl
  | next u =>
    obtain ⟨hsp, hstack⟩ := exec_keepsStack hret hcall he
    exact SameButDeadEntries.setStack fun j hj => by
      rw [hstack]
      exact hlive j (hsp ▸ hj)

/-- RET reads only the top entry, which is live (R24, R90). -/
theorem popPc_agrees (h : SameButDeadEntries s t) : OutcomesAgree s.popPc t.popPc := by
  obtain ⟨ht, hlive⟩ := h
  generalize t.stack = S at ht hlive
  subst ht
  unfold State.popPc
  by_cases hz : s.sp.val = 0
  · rw [dif_pos hz, dif_pos hz]
    rfl
  · rw [dif_neg hz, dif_neg hz]
    have htop : S[s.sp.val - 1] = s.stack[s.sp.val - 1] := hlive ⟨s.sp.val - 1, by omega⟩ (Nat.sub_one_lt hz)
    refine ⟨by rw [htop], fun j hj => hlive j (Nat.lt_of_lt_pred hj)⟩

/-- CALL gives the first dead entry the same value in both, and makes it live (R24, R92). -/
theorem push_agrees (h : SameButDeadEntries s t) (w : Word) : OutcomesAgree (s.push w) (t.push w) := by
  obtain ⟨ht, hlive⟩ := h
  generalize t.stack = S at ht hlive
  subst ht
  unfold State.push
  by_cases hroom : s.sp.val < s.cfg.stackCapacity.toNat ∧ s.sp.val < 16
  · rw [dif_pos hroom, dif_pos hroom]
    refine ⟨rfl, fun j hj => ?_⟩
    by_cases hj' : j.val = s.sp.val
    · simp [hj']
    · have hlt : j.val < s.sp.val := by
        simp only at hj
        omega
      simp [Vector.getElem_set_ne, Ne.symm hj', hlive j hlt]
  · rw [dif_neg hroom, dif_neg hroom]
    rfl

/-- Parts of a step that agree one after the other agree together. -/
theorem OutcomesAgree.andThen {o p : Result} {f g : State → Result} (h : OutcomesAgree o p)
    (hfg : ∀ u v, SameButDeadEntries u v → OutcomesAgree (f u) (g v)) :
    OutcomesAgree (andThen o f) (andThen p g) := by
  match o, p, h with
  | .next u, .next v, h => exact hfg u v h
  | .fault _, .fault _, h => exact h
  | .refused _, .refused _, h => exact h

/-- Every instruction answers alike in two machines that differ only in dead entries (R24). -/
theorem exec_agrees (i : Instr) (h : SameButDeadEntries s t) : OutcomesAgree (exec i s) (exec i t) := by
  by_cases hret : i = .ret
  · subst hret
    exact popPc_agrees h
  · by_cases hcall : ∃ nnn, i = .call nnn
    · obtain ⟨nnn, rfl⟩ := hcall
      have hpc : t.pc = s.pc := by rw [h.1]
      show OutcomesAgree (Sys2Proof.Machine.andThen (s.push s.pc) _) (Sys2Proof.Machine.andThen (t.push t.pc) _)
      rw [hpc]
      exact (push_agrees h s.pc).andThen fun u v huv =>
        huv.map (f := (State.setPc · (zextAddr nnn))) (fun _ _ => rfl) (fun _ => rfl) fun _ => rfl
    · exact exec_agrees_of_stack_unused hret (fun nnn he => hcall ⟨nnn, he⟩) h

/-! ## The step -/

theorem instrStep_agrees (h : SameButDeadEntries s t) : OutcomesAgree (instrStep s) (instrStep t) := by
  have hpc : t.pc = s.pc := by rw [h.1]
  have hcode : t.opcodeAtPc = s.opcodeAtPc := by rw [h.1]; rfl
  have hfetch : t.fetchable = s.fetchable := by rw [h.1]; rfl
  unfold instrStep withFetched
  rw [hpc, hcode, hfetch]
  split
  · have hadvanced : SameButDeadEntries s.advancePc t.advancePc :=
      h.map (f := State.advancePc) (fun _ _ => rfl) (fun _ => rfl) fun _ => rfl
    exact (exec_agrees _ hadvanced).andThen fun _ _ huv => huv.endInstr
  · rfl

theorem scheduled_agrees (h : SameButDeadEntries s t) : OutcomesAgree (scheduled s) (scheduled t) := by
  have htag : t.execState = s.execState := by rw [h.1]
  unfold scheduled
  rw [htag]
  cases s.execState with
  | running => exact instrStep_agrees h
  | paused | quit => exact h

/-- Settles O53: the host's inputs, the fetch, the instruction and its end each keep the relation. -/
theorem deadStackEntriesAreUnobservable : Obligations.DeadStackEntriesAreUnobservable := by
  intro s t h
  have htag : t.execState = s.execState := by rw [h.1]
  unfold step machineStep
  rw [htag]
  cases s.execState with
  | quit => exact h
  | running | paused => exact scheduled_agrees h.takeHostInputs

end Sys2Proof.Machine
end

section
/-! SUPPORT. The invariants of R37, R27, R32 and R168: every elementary write, every host input and the end of an
instruction keep them, and so does every step. -/

namespace Sys2Proof.Machine

variable {W : Component → Prop} {s t : State}

/-- IPT is at least 1, since CLOCK_RATE is (R12). -/
theorem instrsPerTick_pos {c : Config} (h : c.legal = true) : 0 < instrsPerTick c := by
  simp only [Config.legal, Bool.and_eq_true, decide_eq_true_eq] at h
  unfold instrsPerTick
  omega

theorem Write.keeps_inv (h : Write W s t) (hs : s.Inv) : t.Inv := by
  obtain ⟨legal, canonical, stack, rows, columns, batch, stopped, waits⟩ := hs
  cases h with
  | byte a b ha _ =>
    exact ⟨legal, State.mem_wf_writeByte b ha canonical, stack, rows, columns, batch, stopped, waits⟩
  | display d _ hd =>
    obtain ⟨rows', columns'⟩ := hd ⟨rows, columns⟩
    exact ⟨legal, canonical, stack, rows', columns', batch, stopped, waits⟩
  | push _ _ hcap _ _ => exact ⟨legal, canonical, hcap, rows, columns, batch, stopped, waits⟩
  | pop _ _ _ =>
    exact ⟨legal, canonical, (Nat.sub_le s.sp.val 1).trans stack, rows, columns, batch, stopped, waits⟩
  | _ => exact ⟨legal, canonical, stack, rows, columns, batch, stopped, waits⟩

theorem Writes.keeps_inv (h : Writes W s t) (hs : s.Inv) : t.Inv := by
  induction h with
  | refl => exact hs
  | tail _ hw ih => exact hw.keeps_inv ih

theorem exec_keeps_inv {i : Instr} (h : exec i s = .next t) (hs : s.Inv) : t.Inv := (exec_writes h).keeps_inv hs

theorem State.Inv.setPc (hs : s.Inv) (w : Word) : (s.setPc w).Inv :=
  (Write.pc (W := fun _ => True) w trivial).keeps_inv hs

theorem State.Inv.setHostInputs (hs : s.Inv) (l : List (List HostInput)) : (s.setHostInputs l).Inv :=
  ⟨hs.cfg_legal, hs.mem_canonical, hs.stack_bounded, hs.display_rows, hs.display_columns, hs.batch_bounded,
    hs.stopped_at_boundary, hs.no_event_waits_at_boundary⟩

theorem State.Inv.setKeys (hs : s.Inv) (k : Vector Bool 16) : (s.setKeys k).Inv :=
  ⟨hs.cfg_legal, hs.mem_canonical, hs.stack_bounded, hs.display_rows, hs.display_columns, hs.batch_bounded,
    hs.stopped_at_boundary, hs.no_event_waits_at_boundary⟩

/-- An event acts only where batch_count is 0, and waits only where it is not (R168). -/
theorem State.Inv.arrive (hs : s.Inv) (x : HostInput) : (arrive s x).Inv := by
  cases x with
  | keys k => exact hs.setKeys (keyLevels k)
  | event e =>
    obtain ⟨legal, canonical, stack, rows, columns, batch, stopped, waits⟩ := hs
    by_cases hb : s.batchCount = 0
    · rw [Machine.arrive, if_pos hb]
      exact ⟨legal, canonical, stack, rows, columns, batch, fun _ => hb, waits⟩
    · rw [Machine.arrive, if_neg hb]
      exact ⟨legal, canonical, stack, rows, columns, batch, stopped, fun h0 => absurd h0 hb⟩

theorem State.Inv.takeHostInputs (hs : s.Inv) : (takeHostInputs s).Inv :=
  takeHostInputs_induct (P := State.Inv) (fun _ x h => h.arrive x) (fun _ l h => h.setHostInputs l) s hs

/-- The count goes on below IPT, or the iteration ends at 0 with no event left (R32, R167, R168). -/
theorem State.Inv.endInstr (hs : s.Inv) (hrun : s.execState = .running) : (endInstr s).Inv := by
  obtain ⟨legal, canonical, stack, rows, columns, -, -, -⟩ := hs
  rcases endInstr_cases s with ⟨hlt, h⟩ | ⟨-, h⟩
  · rw [h]
    exact ⟨legal, canonical, stack, rows, columns, hlt, fun hstop => absurd hrun hstop,
      fun h0 => absurd h0 (Nat.succ_ne_zero _)⟩
  · rw [h, endIteration_eq]
    exact ⟨legal, canonical, stack, rows, columns, instrsPerTick_pos legal, fun _ => rfl, fun _ => rfl⟩

/-- Settles O54: the host's inputs, the fetch's advance, the instruction and its end each keep the invariants. -/
theorem stepKeepsInvariants : Obligations.StepKeepsInvariants := by
  intro s t hs h
  have htaken := hs.takeHostInputs
  rcases step_eq_next h with ⟨-, rfl⟩ | ⟨-, -, rfl⟩ | ⟨-, hrun, -, u, hu, rfl⟩
  · exact hs
  · exact htaken
  · obtain ⟨-, htag, -⟩ := exec_keepsHostElements hu
    exact (exec_keeps_inv hu (htaken.setPc _)).endInstr (htag.trans hrun)

end Sys2Proof.Machine
end

section
/-! SUPPORT. The bound on pc (R23) and on the live stack entries (R24). -/

namespace Sys2Proof.Machine

variable {s t : State}

/-- "a live stack entry holds the advanced pc of a CALL that was fetched" (R24). -/
def State.EntriesBounded (s : State) : Prop := ∀ j : Fin 16, j.val < s.sp.val → s.stack[j.val].toNat ≤ 4095

theorem zextAddr_le (nnn : Addr12) : (zextAddr nnn).toNat ≤ 4095 := by
  have := nnn.isLt
  simp only [zextAddr, BitVec.toNat_setWidth]
  omega

theorem offsetTarget_le (s : State) (nnn : Addr12) : (s.offsetTarget nnn).toNat ≤ 0x10FE := by
  have haddr := zextAddr_le nnn
  have hbyte := (s.getV 0).isLt
  simp only [State.offsetTarget, zextByte, BitVec.toNat_add, BitVec.toNat_setWidth]
  omega

theorem skipIf_pc_le (s : State) (c : Bool) : (s.skipIf c).pc.toNat ≤ s.pc.toNat + 2 := by
  rw [State.skipIf_eq, State.setPc_pc]
  split
  · rw [BitVec.toNat_add]
    exact Nat.mod_le _ _
  · omega

/-- The key wait leaves pc, or takes it back to the instruction (R134). -/
theorem execLdK_pc {x : Reg} (h : execLdK x s = .next t) : t.pc = s.pc ∨ t.pc = s.pc - 2#16 := by
  unfold execLdK at h
  split at h <;> split at h <;> cases h
  · exact .inr rfl
  · exact .inr rfl
  · exact .inr rfl
  · exact .inl rfl

/-- After a fetch at 4093 or below, no instruction takes pc beyond 0x10FE, which JP.V0 alone can reach (R23). -/
theorem exec_pc_le {i : Instr} (h : exec i s = .next t) (hlow : 2 ≤ s.pc.toNat) (hpc : s.pc.toNat ≤ 4095)
    (hs : s.EntriesBounded) : t.pc.toNat ≤ 0x10FE := by
  cases i with
  | jp nnn =>
    cases h
    exact (zextAddr_le nnn).trans (by decide)
  | jpV0 nnn =>
    cases h
    exact offsetTarget_le s nnn
  | call nnn =>
    obtain ⟨u, -, ht⟩ := andThen_eq_next h
    cases ht
    exact (zextAddr_le nnn).trans (by decide)
  | ret =>
    rcases s.popPc_cases with ⟨-, hf⟩ | ⟨htop, hnz, hn⟩
    · cases hf.symm.trans h
    · cases hn.symm.trans h
      exact (hs ⟨s.sp.val - 1, htop⟩ (Nat.sub_one_lt hnz)).trans (by decide)
  | seI _ _ | sneI _ _ | seR _ _ | sneR _ _ =>
    cases h
    exact (skipIf_pc_le s _).trans (by omega)
  | skp _ | sknp _ =>
    simp only [exec, execSkp, execSknp] at h
    obtain ⟨q, -, hq⟩ := withKey_eq_next h
    cases hq
    exact (skipIf_pc_le s _).trans (by omega)
  | ldK x =>
    rcases execLdK_pc h with hk | hk <;> rw [hk]
    · omega
    · bv_omega
  | _ =>
    have hkept : t.pc = s.pc := instructionsWriteOnlyTheirOwn _ s t h .pc (by simp [mayWrite, Component.isDisplay])
    rw [hkept]
    omega

/-- CALL makes the advanced pc live, RET makes an entry dead, and no other instruction uses the stack (R24). -/
theorem exec_keeps_entriesBounded {i : Instr} (h : exec i s = .next t) (hpc : s.pc.toNat ≤ 4095)
    (hs : s.EntriesBounded) : t.EntriesBounded := by
  by_cases hret : i = .ret
  · subst hret
    rcases s.popPc_cases with ⟨-, hf⟩ | ⟨_, -, hn⟩
    · cases hf.symm.trans h
    · cases hn.symm.trans h
      exact fun j hj => hs j (Nat.lt_of_lt_pred hj)
  by_cases hcall : ∃ nnn, i = .call nnn
  · obtain ⟨nnn, rfl⟩ := hcall
    obtain ⟨u, hu, ht⟩ := andThen_eq_next h
    cases ht
    rcases s.push_cases s.pc with ⟨-, hf⟩ | ⟨hsp, -, hn⟩
    · cases hf.symm.trans hu
    · cases hn.symm.trans hu
      intro j hj
      rcases Nat.lt_succ_iff_lt_or_eq.1 hj with hlt | heq
      · simpa [Vector.getElem_set_ne, Nat.ne_of_gt hlt] using hs j hlt
      · simpa [heq] using hpc
  · obtain ⟨hsp, hstack⟩ := exec_keepsStack hret (fun nnn he => hcall ⟨nnn, he⟩) h
    unfold State.EntriesBounded
    rw [hsp, hstack]
    exact hs

theorem State.PcInv.takeHostInputs (hs : s.PcInv) : (takeHostInputs s).PcInv := by
  obtain ⟨hpc, hstack⟩ := hs
  exact ⟨by simpa using hpc, by simpa using hstack⟩

@[simp] theorem endInstr_pc (s : State) : (endInstr s).pc = s.pc := by
  rcases endInstr_cases s with ⟨-, h⟩ | ⟨-, h⟩ <;> simp [h, endIteration_eq]

/-- Settles O55: a fetch hands the instruction a pc from 2 to 4095, from which each instruction keeps the bound. -/
theorem stepKeepsPcBound : Obligations.StepKeepsPcBound := by
  intro s t hs h
  have htaken := hs.takeHostInputs
  rcases step_eq_next h with ⟨-, rfl⟩ | ⟨-, -, rfl⟩ | ⟨-, -, hpc, u, hu, rfl⟩
  · exact hs
  · exact htaken
  · generalize Machine.takeHostInputs s = r at hpc hu htaken
    have hadvanced : (r.pc + 2#16).toNat = r.pc.toNat + 2 := by bv_omega
    have hle : (r.setPc (r.pc + 2#16)).pc.toNat ≤ 4095 := by rw [State.setPc_pc]; omega
    have hlow : 2 ≤ (r.setPc (r.pc + 2#16)).pc.toNat := by rw [State.setPc_pc]; omega
    have hentries : (r.setPc (r.pc + 2#16)).EntriesBounded := htaken.stack_entries_bounded
    exact ⟨by simpa using exec_pc_le hu hlow hle hentries,
      by simpa [State.EntriesBounded] using exec_keeps_entriesBounded hu hle hentries⟩

end Sys2Proof.Machine
end

section
/-! SUPPORT. Reset and load meet the invariants (R35, R47, R180), and so every state of every run does. -/

namespace Sys2Proof.Machine

variable {s : State}

theorem State.initial_inv {c : Config} (h : c.legal = true) : (State.initial c).Inv := by
  obtain ⟨rows, columns⟩ := blankDisplay_rect c.displayW c.displayH
  exact ⟨h, rfl, Nat.zero_le _, rows, columns, instrsPerTick_pos h, fun _ => rfl, fun _ => rfl⟩

theorem State.initial_pcInv (c : Config) : (State.initial c).PcInv :=
  ⟨(by decide : (BitVec.ofNat 16 entry).toNat ≤ 0x10FE), fun _ hj => absurd hj (Nat.not_lt_zero _)⟩

/-- Copying a ROM that fits keeps the invariants (R47). -/
theorem State.Inv.copyBytes (hs : s.Inv) {a : Nat} {bs : List Byte} (hlen : a + bs.length ≤ memSize) :
    (copyBytes a bs s).Inv := by
  obtain ⟨legal, canonical, stack, rows, columns, batch, stopped, waits⟩ := hs
  have hcanonical := copyBytes_mem_wf bs a s hlen canonical
  rw [copyBytes_eq] at hcanonical ⊢
  exact ⟨legal, hcanonical, stack, rows, columns, batch, stopped, waits⟩

theorem State.PcInv.copyBytes (hs : s.PcInv) (a : Nat) (bs : List Byte) : (copyBytes a bs s).PcInv := by
  rw [copyBytes_eq]
  exact ⟨hs.pc_bounded, hs.stack_entries_bounded⟩

/-- Load answers only under a legal configuration and with a ROM that fits, which it copies to 0x200 (R47, R156). -/
theorem load_eq_next {c : Config} {rom : Option (List Byte)} (h : load c rom = .next s) :
    c.legal = true ∧ ∃ bytes, rom = some bytes ∧ bytes.length ≤ maxRomLen ∧
      s = copyBytes entry bytes (State.initial c) := by
  cases rom with
  | none => cases h
  | some bytes =>
    simp only [load] at h
    split at h
    · cases h
    · rename_i hlegal
      split at h
      · cases h
      · rename_i hlen
        cases h
        exact ⟨by simpa using hlegal, bytes, rfl, by omega, rfl⟩

/-- A loaded machine meets both invariants, whatever the host's schedule (R180). -/
theorem load_meetsInvariants {c : Config} {rom : Option (List Byte)} (h : load c rom = .next s)
    (inputs : List (List HostInput)) : (s.setHostInputs inputs).Inv ∧ (s.setHostInputs inputs).PcInv := by
  obtain ⟨hlegal, bytes, -, hlen, rfl⟩ := load_eq_next h
  have hfits : entry + bytes.length ≤ memSize := by
    simp only [maxRomLen, entry, memSize] at hlen ⊢
    omega
  have hpc := (State.initial_pcInv c).copyBytes entry bytes
  exact ⟨((State.initial_inv hlegal).copyBytes hfits).setHostInputs inputs, hpc.pc_bounded, hpc.stack_entries_bounded⟩

/-- Settles O57: load meets both invariants and every step keeps both. -/
theorem reachableStatesMeetInvariants : Obligations.ReachableStatesMeetInvariants := fun _ h =>
  reachable_induct (P := fun s => s.Inv ∧ s.PcInv) (fun _ _ _ inputs hload => load_meetsInvariants hload inputs)
    (fun s t hs hstep => ⟨stepKeepsInvariants s t hs.1 hstep, stepKeepsPcBound s t hs.2 hstep⟩) h

/-- Settles O56: the default configuration is legal, and an initial state meets both invariants. -/
theorem resetMeetsInvariants : Obligations.ResetMeetsInvariants :=
  ⟨State.initial_inv (by decide), State.initial_pcInv defaultConfig⟩

/-- Before anything is stored, memory reads as the font and then as zeros (R35, R41). -/
theorem State.initial_readByte (c : Config) (a : Nat) : (State.initial c).readByte a = background c.font a := rfl

/-- Settles O58: the fields of the initial state, and its empty memory read through `background`. -/
theorem resetValues : Obligations.ResetValues := by
  refine ⟨rfl, rfl, rfl, fun a => ?_, fun a hfont _ => ?_, fun r => ?_, rfl, rfl, rfl, fun x y => ?_, rfl, rfl, rfl,
    fun k => ?_⟩
  · exact (State.initial_readByte _ _).trans (dif_pos a.isLt)
  · exact (State.initial_readByte _ _).trans (dif_neg (by omega))
  · exact Vector.getElem_replicate _
  · exact cell_blankDisplay _ _ x y
  · exact Vector.getElem_replicate _

end Sys2Proof.Machine
end

section
/-! SUPPORT. batch_count over undisturbed steps (R32, R167). -/

namespace Sys2Proof.Machine

variable {s t : State}

/-- The machine runs and nothing the host has done or will do touches it. -/
structure State.Undisturbed (s : State) : Prop where
  running : s.execState = .running
  no_inputs : s.hostInputs = []
  no_events : s.pendingEvents = []
  batch_bounded : s.batchCount < instrsPerTick s.cfg

/-- With no event waiting, the end of an instruction counts modulo IPT and leaves the machine undisturbed (R167). -/
theorem State.Undisturbed.endInstr (hs : s.Undisturbed) :
    (endInstr s).Undisturbed ∧ (endInstr s).batchCount = (s.batchCount + 1) % instrsPerTick s.cfg := by
  obtain ⟨running, no_inputs, no_events, batch⟩ := hs
  rcases endInstr_cases s with ⟨hlt, h⟩ | ⟨hge, h⟩
  · rw [h]
    exact ⟨⟨running, no_inputs, no_events, hlt⟩, (Nat.mod_eq_of_lt hlt).symm⟩
  · have hlast : s.batchCount + 1 = instrsPerTick s.cfg := by omega
    rw [h, endIteration_eq, no_events, hlast, Nat.mod_self]
    exact ⟨⟨running, no_inputs, rfl, Nat.zero_lt_of_lt batch⟩, rfl⟩

/-- An undisturbed step is one instruction, which the scheduler's elements pass through, and its end (R63, R167). -/
theorem State.Undisturbed.step (hs : s.Undisturbed) (h : step s = .next t) :
    t.Undisturbed ∧ t.batchCount = (s.batchCount + 1) % instrsPerTick s.cfg := by
  have htaken := takeHostInputs_of_nil hs.no_inputs
  rcases step_eq_next h with ⟨hquit, -⟩ | ⟨-, hstop, -⟩ | ⟨-, -, -, u, hu, rfl⟩
  · exact absurd (hs.running.symm.trans hquit) (by decide)
  · exact absurd hs.running (htaken ▸ hstop)
  · rw [htaken] at hu
    obtain ⟨hcfg, htag, -, hbatch, hevents, hinputs⟩ := exec_keepsHostElements hu
    simp only [State.setPc_cfg, State.setPc_execState, State.setPc_batchCount, State.setPc_pendingEvents,
      State.setPc_hostInputs] at hcfg htag hbatch hevents hinputs
    rw [← hcfg, ← hbatch]
    exact State.Undisturbed.endInstr
      ⟨htag.trans hs.running, hinputs.trans hs.no_inputs, hevents.trans hs.no_events, by
        rw [hcfg, hbatch]
        exact hs.batch_bounded⟩

/-- Undisturbed steps, one after the other: batch_count goes round with them. -/
theorem State.Undisturbed.run : ∀ (k : Nat) {s : State}, s.Undisturbed → Sys2Proof.core.run k s = .next t →
    t.Undisturbed ∧ t.batchCount = (s.batchCount + k) % instrsPerTick s.cfg
  | 0, _, hs, h => by
    cases h
    exact ⟨hs, (Nat.mod_eq_of_lt hs.batch_bounded).symm⟩
  | k + 1, s, hs, h => by
    simp only [Host.Core.run] at h
    split at h
    · rename_i u hu
      obtain ⟨hsu, hcount⟩ := hs.step hu
      obtain ⟨ht, hrest⟩ := State.Undisturbed.run k hsu h
      refine ⟨ht, ?_⟩
      rw [hrest, hcount, step_cfg hu, Nat.mod_add_mod, Nat.add_assoc, Nat.add_comm 1 k]
    · cases h
    · cases h

/-- Settles O11: the run of undisturbed steps, by induction on their number. -/
theorem batchCountGoesRoundOverSteps : Obligations.BatchCountGoesRoundOverSteps := by
  intro k s t running no_inputs no_events batch h
  obtain ⟨ht, hcount⟩ := State.Undisturbed.run k ⟨running, no_inputs, no_events, batch⟩ h
  exact ⟨hcount, ht.running⟩

end Sys2Proof.Machine
end

section
/-! SUPPORT. Two bytes of memory are one opcode, the one at the lower address first (R43, R60). -/

namespace Sys2Proof

theorem bigEndian_toNat (hi lo : Byte) : (bigEndian hi lo).toNat = 256 * hi.toNat + lo.toNat := by
  have hshift : hi.toNat <<< 8 + lo.toNat = hi.toNat <<< 8 ||| lo.toNat := Nat.shiftLeft_add_eq_or_of_lt lo.isLt _
  rw [bigEndian, BitVec.toNat_append, ← hshift, Nat.shiftLeft_eq, Nat.mul_comm]

theorem highByte_toNat (w : Word) : (w.extractLsb' 8 8).toNat = w.toNat / 256 := by
  have := w.isLt
  rw [BitVec.extractLsb'_toNat, Nat.shiftRight_eq_div_pow]
  omega

theorem lowByte_toNat (w : Word) : (w.extractLsb' 0 8).toNat = w.toNat % 256 := by
  rw [BitVec.extractLsb'_toNat, Nat.shiftRight_zero]

/-- Sixteen bits are the whole of an opcode (R60). -/
@[simp] theorem tableWord_toNat (w : Word) : tableWord 16 w.toNat = w := by
  rw [tableWord, Nat.mod_eq_of_lt w.isLt, BitVec.ofNat_toNat, BitVec.setWidth_eq]

/-- Settles O6: the word decoded is `bigEndian` of the first two bytes, and each shorter string has its own refusing case. -/
theorem decodeTakesTwoBigEndianBytes : Obligations.DecodeTakesTwoBigEndianBytes :=
  ⟨fun hi lo _ => ⟨bigEndian hi lo, bigEndian_toNat hi lo, rfl⟩, fun _ => rfl, rfl⟩

end Sys2Proof
end

section
/-! SUPPORT. STM over the instruction stream (R51, R124). -/

namespace Sys2Proof.Machine

variable {s t : State}

/-- The byte a run of stores leaves at a stored register's address is that register (R124). -/
theorem storeRegs_readByte_of_mem (base : Nat) {rs : List Reg} {q : Reg} (hq : q ∈ rs) (s : State) :
    (storeRegs base rs s).readByte (base + q.val) = s.getV q := by
  have hstored : base ≤ base + q.val ∧ ∃ r ∈ rs, base + r.val = base + q.val := ⟨Nat.le_add_right _ _, q, hq, rfl⟩
  rw [storeRegs_readByte, dif_pos hstored]
  congr
  omega

/-- STM that completes has stored each of V[0] to V[x] at its own offset from the old I (R124). -/
theorem execStm_readByte {x q : Reg} (h : execStm x s = .next t) (hq : q.val ≤ x.val) :
    t.readByte (s.dataBase + q.val) = s.getV q := by
  obtain ⟨-, hk⟩ := checkRange_eq_next h
  cases hk
  rw [State.readByte_setIndex]
  exact storeRegs_readByte_of_mem _ ((mem_regsUpTo x q).2 hq) s

/-- Settles O38: STM leaves pc alone, and the fetch reads the two bytes it stored. -/
theorem storeIsSeenByNextFetch : Obligations.StoreIsSeenByNextFetch := by
  intro s t x p q h hp hq hpcp hpcq
  have hpc : t.pc = s.pc := instructionsWriteOnlyTheirOwn _ s t h .pc (by simp [mayWrite])
  rw [State.opcodeAtPc, hpc, hpcq, hpcp, execStm_readByte h hp, execStm_readByte h hq]

end Sys2Proof.Machine
end

section
/-! SUPPORT. A loaded machine (R47, R180): the initial state with the ROM copied into memory. -/

namespace Sys2Proof.Machine

/-- Load answers under a legal configuration and with a ROM that fits (R47, R156). -/
theorem load_of_fits {c : Config} {rom : List Byte} (hlegal : c.legal = true) (hfits : rom.length ≤ 3584) :
    load c (some rom) = .next (copyBytes entry rom (State.initial c)) := by
  have hlen : ¬ maxRomLen < rom.length := Nat.not_lt.2 hfits
  simp [load, hlegal, hlen]

theorem copyBytes_readByte_inside {bs : List Byte} {a j : Nat} (s : State) (h : j < bs.length) :
    (copyBytes a bs s).readByte (a + j) = bs[j] := by
  rw [copyBytes_readByte, dif_pos (by omega)]
  simp

theorem copyBytes_readByte_outside {bs : List Byte} {a q : Nat} (s : State) (h : q < a ∨ a + bs.length ≤ q) :
    (copyBytes a bs s).readByte q = s.readByte q := by
  rw [copyBytes_readByte, dif_neg (by omega)]

/-- Settles O59: memory is the ROM inside its range and the reset contents outside, and every other field is the initial
state's. -/
theorem loadPlacesRomAndFont : Obligations.LoadPlacesRomAndFont := by
  intro c rom hlegal hfits
  have hload := load_of_fits hlegal hfits
  refine ⟨_, hload, fun j hj => copyBytes_readByte_inside _ hj, fun a => ?_, fun a hfont _ hout => ?_, ?_⟩
  · have hbelow : a.val < entry := a.isLt.trans (by decide)
    rw [copyBytes_readByte_outside _ (.inl hbelow), State.initial_readByte]
    exact dif_pos a.isLt
  · rw [copyBytes_readByte_outside (a := entry) _ hout, State.initial_readByte]
    exact dif_neg (Nat.not_lt.2 hfont)
  · have hinv := (load_meetsInvariants hload []).1
    rw [copyBytes_eq] at hinv ⊢
    exact ⟨rfl, rfl, rfl, rfl, fun _ => Vector.getElem_replicate _, rfl, rfl, rfl, cell_blankDisplay _ _, rfl, rfl, rfl,
      fun _ => Vector.getElem_replicate _, hinv⟩

end Sys2Proof.Machine
end

section
/-! SUPPORT. The step of a running machine, and the word placed where that step fetches (R46, R63, R171). -/

namespace Sys2Proof.Machine

variable {s : State}

theorem Frame.mono {t : State} {W W' : Component → Prop} (h : Frame s t W) (hsub : ∀ c, W c → W' c) : Frame s t W' :=
  fun c hc => h c fun hw => hc (hsub c hw)

/-- A machine that is Running after the host's inputs, with pc in the range that fetches, runs the instruction at pc, with
pc advanced, and ends it (R46, R63). -/
theorem step_of_running (hquit : s.execState ≠ .quit) (hrun : (takeHostInputs s).execState = .running)
    (hpc : (takeHostInputs s).pc.toNat ≤ 4093) :
    step s = andThen (exec (decodeWord (takeHostInputs s).opcodeAtPc) ((takeHostInputs s).setPc ((takeHostInputs s).pc + 2#16)))
      fun t => .next (endInstr t) := by
  rw [step_of_not_quit hquit, scheduled, hrun]
  rcases withFetched_cases (takeHostInputs s) (fun w t => andThen (exec (decodeWord w) t) fun u => .next (endInstr u)) with
    ⟨hbeyond, -⟩ | ⟨-, hfetched⟩
  · omega
  · exact hfetched

theorem State.setHostInputs_self {l : List (List HostInput)} (h : s.hostInputs = l) : s.setHostInputs l = s := by
  subst h
  rfl

/-- A gap in which the host does nothing is only taken off the schedule (R171). -/
theorem takeHostInputs_of_empty_gap (h : s.hostInputs.headD [] = []) :
    takeHostInputs s = s.setHostInputs s.hostInputs.tail := by
  cases hs : s.hostInputs with
  | nil => rw [takeHostInputs_of_nil hs, List.tail_nil, State.setHostInputs_self hs]
  | cons now later =>
    obtain rfl : now = [] := by simpa [hs] using h
    exact takeHostInputs_of_cons hs

/-! ### The state ready to fetch -/

/-- The pc of the next fetch: the state's own where it can be fetched, else ENTRY (R7, R46, log entry 6). -/
def State.fetchPc (s : State) : Word := if s.pc.toNat ≤ 4093 then s.pc else 0x200#16

theorem State.fetchPc_le (s : State) : s.fetchPc.toNat ≤ 4093 := by
  unfold State.fetchPc
  split
  · assumption
  · decide

theorem State.moveToFetchable_eq (s : State) :
    (if s.fetchable then s else s.setPc (BitVec.ofNat 16 entry)) = s.setPc s.fetchPc := by
  have hfetchable : s.fetchable = true ↔ s.pc.toNat ≤ 4093 := decide_eq_true_iff
  simp only [State.fetchPc, hfetchable]
  split <;> rfl

/-- What `readyToFetch` sets: the tag, pc, and an empty gap before the next step (log entry 6). -/
theorem State.readyToFetch_sets (s : State) :
    ∃ inputs, inputs.headD [] = [] ∧ inputs.tail = s.hostInputs.tail ∧
      s.readyToFetch = ((s.setPc s.fetchPc).setExecState .running).setHostInputs inputs := by
  simp only [State.readyToFetch, State.moveToFetchable_eq, State.setPc_hostInputs, State.setExecState_hostInputs]
  cases hs : s.hostInputs with
  | nil => exact ⟨[], rfl, rfl, (State.setHostInputs_self (s := (s.setPc s.fetchPc).setExecState .running) hs).symm⟩
  | cons now later => exact ⟨[] :: later, rfl, rfl, rfl⟩

theorem State.readyToFetch_frame (s : State) :
    Frame s s.readyToFetch (fun c => c = .pc ∨ c = .execState ∨ c = .hostInputs) := by
  intro c hc
  obtain ⟨inputs, -, -, hr⟩ := s.readyToFetch_sets
  rw [hr]
  cases c with
  | pc | execState | hostInputs => simp at hc
  | _ => rfl

/-! ### A placed opcode -/

theorem State.placeOpcode_readByte_high (s : State) (a : Nat) (w : Word) :
    (s.placeOpcode a w).readByte a = w.extractLsb' 8 8 := by
  simp [State.placeOpcode]

theorem State.placeOpcode_readByte_low (s : State) (a : Nat) (w : Word) :
    (s.placeOpcode a w).readByte (a + 1) = w.extractLsb' 0 8 := by
  simp [State.placeOpcode]

/-- Placing an opcode writes its two bytes (R43). -/
theorem State.placeOpcode_frame (s : State) (a : Nat) (w : Word) :
    Frame s (s.placeOpcode a w) (fun c => c = .byte a ∨ c = .byte (a + 1)) := by
  intro c hc
  cases c with
  | byte x =>
    simp only [Component.byte.injEq, not_or] at hc
    simp [Component.same, State.placeOpcode, hc.1, hc.2]
  | _ => rfl

/-- A word placed at a running machine's pc, with nothing due from the host, is the instruction its step runs (R46, R63). -/
theorem step_placeOpcode (hrun : s.execState = .running) (hgap : s.hostInputs.headD [] = []) (hpc : s.pc.toNat ≤ 4093)
    (w : Word) :
    step (s.placeOpcode s.pc.toNat w) =
      andThen (exec (decodeWord w) (((s.placeOpcode s.pc.toNat w).setHostInputs s.hostInputs.tail).setPc (s.pc + 2#16)))
        fun t => .next (endInstr t) := by
  have htaken : takeHostInputs (s.placeOpcode s.pc.toNat w) = (s.placeOpcode s.pc.toNat w).setHostInputs s.hostInputs.tail :=
    takeHostInputs_of_empty_gap hgap
  have hquit : (s.placeOpcode s.pc.toNat w).execState ≠ .quit := fun h => nomatch hrun.symm.trans h
  have hopcode : ((s.placeOpcode s.pc.toNat w).setHostInputs s.hostInputs.tail).opcodeAtPc = w := by
    refine Eq.trans ?_ (bigEndian_opcodeBytes w)
    exact congrArg₂ bigEndian (s.placeOpcode_readByte_high _ w) (s.placeOpcode_readByte_low _ w)
  rw [step_of_running hquit (htaken ▸ hrun) (htaken ▸ hpc), htaken, hopcode]
  rfl

theorem State.withFetchWord_eq (s : State) (w : Word) :
    s.withFetchWord 16 w.toNat = s.readyToFetch.placeOpcode s.readyToFetch.pc.toNat w := by
  rw [State.withFetchWord, State.withNextOpcode, tableWord_toNat]

/-- Settles O15: the placed state is one ready to fetch with the word's two bytes at pc, so its step runs the word. -/
theorem placedWordIsRunNext : Obligations.PlacedWordIsRunNext := by
  intro s w
  rw [State.withFetchWord_eq]
  obtain ⟨inputs, hgap, htail, hr⟩ := s.readyToFetch_sets
  have hready := s.readyToFetch_frame
  generalize s.readyToFetch = q at hr hready ⊢
  have hrun : q.execState = .running := by rw [hr]; rfl
  have hpc : q.pc = s.fetchPc := by rw [hr]; rfl
  have hinputs : q.hostInputs = inputs := by rw [hr]; rfl
  have hplaced := q.placeOpcode_frame q.pc.toNat w
  refine ⟨?_, hrun, hpc, ?_, ?_, ?_, ?_⟩
  · rw [← htail, ← hinputs]
    exact step_placeOpcode hrun (hinputs ▸ hgap) (hpc ▸ s.fetchPc_le) w
  · exact (congrArg BitVec.toNat (q.placeOpcode_readByte_high _ w)).trans (highByte_toNat w)
  · exact (congrArg BitVec.toNat (q.placeOpcode_readByte_low _ w)).trans (lowByte_toNat w)
  · exact (congrArg List.tail hinputs).trans htail
  · exact (hready.mono fun c hc => .inr (.inr hc)).trans
      (hplaced.mono fun c hc => hc.elim .inl fun h => .inr (.inl h))

end Sys2Proof.Machine
end

section
/-! SUPPORT. The 34 rows of the opcode map against the decoder (R64, R65): a word that a row's mask and match admit has the
fields the match fixes, so it decodes to that row's instruction on the word's own operand fields. -/

namespace Sys2Proof

open Sys2Proof.Machine

variable {w m v : Word}

/-- The bits a mask keeps are the opcode's own (R64). -/
theorem extractLsb'_of_and {lo len : Nat} (h : w &&& m = v) (hkeep : m.extractLsb' lo len = BitVec.allOnes len) :
    w.extractLsb' lo len = v.extractLsb' lo len := by
  rw [← h, BitVec.extractLsb'_and, hkeep, BitVec.and_allOnes]

theorem cls_of_and {c : Fin 16} (h : w &&& m = v) (hkeep : m.extractLsb' 12 4 = BitVec.allOnes 4 := by decide)
    (hc : nibbleAt v 12 = c := by decide) : (fieldsOf w).cls = c :=
  (congrArg BitVec.toFin (extractLsb'_of_and h hkeep)).trans hc

theorem n_of_and {n : Fin 16} (h : w &&& m = v) (hkeep : m.extractLsb' 0 4 = BitVec.allOnes 4 := by decide)
    (hn : nibbleAt v 0 = n := by decide) : (fieldsOf w).n = n :=
  (congrArg BitVec.toFin (extractLsb'_of_and h hkeep)).trans hn

theorem nn_of_and {nn : Byte} (h : w &&& m = v) (hkeep : m.extractLsb' 0 8 = BitVec.allOnes 8 := by decide)
    (hnn : v.extractLsb' 0 8 = nn := by decide) : (fieldsOf w).nn = nn :=
  (extractLsb'_of_and h hkeep).trans hnn

/-- The mask FFFF admits one word (R64). -/
theorem encodedAs_of_word {i : Instr} (h : decodeWord v = i) : EncodedAs 0xFFFF#16 v (fun _ => i) := fun w hw => by
  rw [← h, ← hw]
  exact congrArg decodeWord BitVec.and_allOnes.symm

theorem encodedAs_cls : EncodedAs 0xFFFF#16 0x00E0#16 (fun _ => .cls) := encodedAs_of_word (by decide)

theorem encodedAs_ret : EncodedAs 0xFFFF#16 0x00EE#16 (fun _ => .ret) := encodedAs_of_word (by decide)

theorem encodedAs_jp : EncodedAs 0xF000#16 0x1000#16 (fun f => .jp f.nnn) :=
  fun w h => by simp [decodeWord, cls_of_and h (c := 0x1)]

theorem encodedAs_call : EncodedAs 0xF000#16 0x2000#16 (fun f => .call f.nnn) :=
  fun w h => by simp [decodeWord, cls_of_and h (c := 0x2)]

theorem encodedAs_seI : EncodedAs 0xF000#16 0x3000#16 (fun f => .seI f.x f.nn) :=
  fun w h => by simp [decodeWord, cls_of_and h (c := 0x3)]

theorem encodedAs_sneI : EncodedAs 0xF000#16 0x4000#16 (fun f => .sneI f.x f.nn) :=
  fun w h => by simp [decodeWord, cls_of_and h (c := 0x4)]

theorem encodedAs_ldI : EncodedAs 0xF000#16 0x6000#16 (fun f => .ldI f.x f.nn) :=
  fun w h => by simp [decodeWord, cls_of_and h (c := 0x6)]

theorem encodedAs_addI : EncodedAs 0xF000#16 0x7000#16 (fun f => .addI f.x f.nn) :=
  fun w h => by simp [decodeWord, cls_of_and h (c := 0x7)]

theorem encodedAs_ldA : EncodedAs 0xF000#16 0xA000#16 (fun f => .ldA f.nnn) :=
  fun w h => by simp [decodeWord, cls_of_and h (c := 0xA)]

theorem encodedAs_jpV0 : EncodedAs 0xF000#16 0xB000#16 (fun f => .jpV0 f.nnn) :=
  fun w h => by simp [decodeWord, cls_of_and h (c := 0xB)]

theorem encodedAs_rnd : EncodedAs 0xF000#16 0xC000#16 (fun f => .rnd f.x f.nn) :=
  fun w h => by simp [decodeWord, cls_of_and h (c := 0xC)]

theorem encodedAs_drw : EncodedAs 0xF000#16 0xD000#16 (fun f => .drw f.x f.y f.n) :=
  fun w h => by simp [decodeWord, cls_of_and h (c := 0xD)]

theorem encodedAs_seR : EncodedAs 0xF00F#16 0x5000#16 (fun f => .seR f.x f.y) :=
  fun w h => by simp [decodeWord, cls_of_and h (c := 0x5), ifLowNibbleZero, n_of_and h (n := 0x0)]

theorem encodedAs_sneR : EncodedAs 0xF00F#16 0x9000#16 (fun f => .sneR f.x f.y) :=
  fun w h => by simp [decodeWord, cls_of_and h (c := 0x9), ifLowNibbleZero, n_of_and h (n := 0x0)]

theorem encodedAs_ldR : EncodedAs 0xF00F#16 0x8000#16 (fun f => .ldR f.x f.y) :=
  fun w h => by simp [decodeWord, cls_of_and h (c := 0x8), decodeClass8, n_of_and h (n := 0x0)]

theorem encodedAs_or : EncodedAs 0xF00F#16 0x8001#16 (fun f => .or f.x f.y) :=
  fun w h => by simp [decodeWord, cls_of_and h (c := 0x8), decodeClass8, n_of_and h (n := 0x1)]

theorem encodedAs_and : EncodedAs 0xF00F#16 0x8002#16 (fun f => .and f.x f.y) :=
  fun w h => by simp [decodeWord, cls_of_and h (c := 0x8), decodeClass8, n_of_and h (n := 0x2)]

theorem encodedAs_xor : EncodedAs 0xF00F#16 0x8003#16 (fun f => .xor f.x f.y) :=
  fun w h => by simp [decodeWord, cls_of_and h (c := 0x8), decodeClass8, n_of_and h (n := 0x3)]

theorem encodedAs_addR : EncodedAs 0xF00F#16 0x8004#16 (fun f => .addR f.x f.y) :=
  fun w h => by simp [decodeWord, cls_of_and h (c := 0x8), decodeClass8, n_of_and h (n := 0x4)]

theorem encodedAs_sub : EncodedAs 0xF00F#16 0x8005#16 (fun f => .sub f.x f.y) :=
  fun w h => by simp [decodeWord, cls_of_and h (c := 0x8), decodeClass8, n_of_and h (n := 0x5)]

theorem encodedAs_shr : EncodedAs 0xF00F#16 0x8006#16 (fun f => .shr f.x f.y) :=
  fun w h => by simp [decodeWord, cls_of_and h (c := 0x8), decodeClass8, n_of_and h (n := 0x6)]

theorem encodedAs_subn : EncodedAs 0xF00F#16 0x8007#16 (fun f => .subn f.x f.y) :=
  fun w h => by simp [decodeWord, cls_of_and h (c := 0x8), decodeClass8, n_of_and h (n := 0x7)]

theorem encodedAs_shl : EncodedAs 0xF00F#16 0x800E#16 (fun f => .shl f.x f.y) :=
  fun w h => by simp [decodeWord, cls_of_and h (c := 0x8), decodeClass8, n_of_and h (n := 0xE)]

theorem encodedAs_skp : EncodedAs 0xF0FF#16 0xE09E#16 (fun f => .skp f.x) :=
  fun w h => by simp [decodeWord, cls_of_and h (c := 0xE), decodeClassE, nn_of_and h (nn := 0x9E#8)]

theorem encodedAs_sknp : EncodedAs 0xF0FF#16 0xE0A1#16 (fun f => .sknp f.x) :=
  fun w h => by simp [decodeWord, cls_of_and h (c := 0xE), decodeClassE, nn_of_and h (nn := 0xA1#8)]

theorem encodedAs_ldDt : EncodedAs 0xF0FF#16 0xF007#16 (fun f => .ldDt f.x) :=
  fun w h => by simp [decodeWord, cls_of_and h (c := 0xF), decodeClassF, nn_of_and h (nn := 0x07#8)]

theorem encodedAs_ldK : EncodedAs 0xF0FF#16 0xF00A#16 (fun f => .ldK f.x) :=
  fun w h => by simp [decodeWord, cls_of_and h (c := 0xF), decodeClassF, nn_of_and h (nn := 0x0A#8)]

theorem encodedAs_stDt : EncodedAs 0xF0FF#16 0xF015#16 (fun f => .stDt f.x) :=
  fun w h => by simp [decodeWord, cls_of_and h (c := 0xF), decodeClassF, nn_of_and h (nn := 0x15#8)]

theorem encodedAs_stSt : EncodedAs 0xF0FF#16 0xF018#16 (fun f => .stSt f.x) :=
  fun w h => by simp [decodeWord, cls_of_and h (c := 0xF), decodeClassF, nn_of_and h (nn := 0x18#8)]

theorem encodedAs_addA : EncodedAs 0xF0FF#16 0xF01E#16 (fun f => .addA f.x) :=
  fun w h => by simp [decodeWord, cls_of_and h (c := 0xF), decodeClassF, nn_of_and h (nn := 0x1E#8)]

theorem encodedAs_ldF : EncodedAs 0xF0FF#16 0xF029#16 (fun f => .ldF f.x) :=
  fun w h => by simp [decodeWord, cls_of_and h (c := 0xF), decodeClassF, nn_of_and h (nn := 0x29#8)]

theorem encodedAs_bcd : EncodedAs 0xF0FF#16 0xF033#16 (fun f => .bcd f.x) :=
  fun w h => by simp [decodeWord, cls_of_and h (c := 0xF), decodeClassF, nn_of_and h (nn := 0x33#8)]

theorem encodedAs_stm : EncodedAs 0xF0FF#16 0xF055#16 (fun f => .stm f.x) :=
  fun w h => by simp [decodeWord, cls_of_and h (c := 0xF), decodeClassF, nn_of_and h (nn := 0x55#8)]

theorem encodedAs_ldm : EncodedAs 0xF0FF#16 0xF065#16 (fun f => .ldm f.x) :=
  fun w h => by simp [decodeWord, cls_of_and h (c := 0xF), decodeClassF, nn_of_and h (nn := 0x65#8)]

/-- Every word a row admits decodes to an instruction of the row's mnemonic: the converse of `EncodesRow.Statement`. -/
def OpcodeRow.Decodes (r : OpcodeRow) : Prop := ∀ w : Word, r.admits w = true → mnemonicOf (decodeWord w) = r.mnemonic

theorem Machine.EncodedAs.decodes {name : String} {mask value : Word} {f : Fields → Instr} (h : EncodedAs mask value f)
    (hf : ∀ g, mnemonicOf (f g) = name := by exact fun _ => rfl) : (OpcodeRow.mk name mask value).Decodes := fun w hw => by
  rw [h w ((Laws.EncodesRow.admits_iff _ w).1 hw)]
  exact hf _

theorem opcodeRows_decode : ∀ r ∈ opcodeRows, r.Decodes := by
  simp only [opcodeRows, lowOpcodeRows, aluOpcodeRows, highOpcodeRows, List.cons_append, List.nil_append,
    List.forall_mem_cons]
  exact ⟨encodedAs_cls.decodes, encodedAs_ret.decodes, encodedAs_jp.decodes, encodedAs_call.decodes,
    encodedAs_seI.decodes, encodedAs_sneI.decodes, encodedAs_seR.decodes, encodedAs_ldI.decodes,
    encodedAs_addI.decodes, encodedAs_ldR.decodes, encodedAs_or.decodes, encodedAs_and.decodes, encodedAs_xor.decodes,
    encodedAs_addR.decodes, encodedAs_sub.decodes, encodedAs_shr.decodes, encodedAs_subn.decodes,
    encodedAs_shl.decodes, encodedAs_sneR.decodes, encodedAs_ldA.decodes, encodedAs_jpV0.decodes,
    encodedAs_rnd.decodes, encodedAs_drw.decodes, encodedAs_skp.decodes, encodedAs_sknp.decodes,
    encodedAs_ldDt.decodes, encodedAs_ldK.decodes, encodedAs_stDt.decodes, encodedAs_stSt.decodes,
    encodedAs_addA.decodes, encodedAs_ldF.decodes, encodedAs_bcd.decodes, encodedAs_stm.decodes,
    encodedAs_ldm.decodes, List.forall_mem_nil _⟩

end Sys2Proof
end

section
/-! SUPPORT. The encoder undoes the decoder (R62, R65): along the decoder's own case split, the fields it kept and the
literal digits it matched are the whole opcode. -/

namespace Sys2Proof

variable {w : Word} {c n : Fin 16}

theorem encodeNNN_of_cls (hc : (fieldsOf w).cls = c) : encodeNNN c (fieldsOf w).nnn = w :=
  hc ▸ encodeNNN_fields w

theorem encodeXNN_of_cls (hc : (fieldsOf w).cls = c) : encodeXNN c (fieldsOf w).x (fieldsOf w).nn = w :=
  hc ▸ encodeXNN_fields w

theorem encodeXNN_of_nn {nn : Byte} (hc : (fieldsOf w).cls = c) (hnn : (fieldsOf w).nn.toNat = nn.toNat) :
    encodeXNN c (fieldsOf w).x nn = w :=
  BitVec.eq_of_toNat_eq hnn ▸ encodeXNN_of_cls hc

theorem ofNibbles_of_n (hc : (fieldsOf w).cls = c) (hn : (fieldsOf w).n.val = n.val) :
    ofNibbles c (fieldsOf w).x (fieldsOf w).y n = w :=
  Fin.ext hn ▸ hc ▸ ofNibbles_fields w

theorem encode_decodeClass0 (hc : (fieldsOf w).cls = 0x0) : encode (decodeClass0 (fieldsOf w) w) = w := by
  have hword {nnn : Addr12} (hnnn : (fieldsOf w).nnn.toNat = nnn.toNat) : encodeNNN 0x0 nnn = w :=
    BitVec.eq_of_toNat_eq hnnn ▸ encodeNNN_of_cls hc
  unfold decodeClass0
  split
  case h_1 hnnn => exact hword (nnn := 0x0E0#12) hnnn
  case h_2 hnnn => exact hword (nnn := 0x0EE#12) hnnn
  case h_3 => rfl

theorem encode_ifLowNibbleZero {i : Instr} (hi : (fieldsOf w).n.val = 0 → encode i = w) :
    encode (ifLowNibbleZero (fieldsOf w) w i) = w := by
  unfold ifLowNibbleZero
  split
  case isTrue hn => exact hi hn
  case isFalse => rfl

theorem encode_decodeClass8 (hc : (fieldsOf w).cls = 0x8) : encode (decodeClass8 (fieldsOf w) w) = w := by
  unfold decodeClass8
  split
  case h_10 => rfl
  all_goals exact ofNibbles_of_n hc ‹_›

theorem encode_decodeClassE (hc : (fieldsOf w).cls = 0xE) : encode (decodeClassE (fieldsOf w) w) = w := by
  unfold decodeClassE
  split
  case h_3 => rfl
  all_goals exact encodeXNN_of_nn hc ‹_›

theorem encode_decodeClassF (hc : (fieldsOf w).cls = 0xF) : encode (decodeClassF (fieldsOf w) w) = w := by
  unfold decodeClassF
  split
  case h_10 => rfl
  all_goals exact encodeXNN_of_nn hc ‹_›

/-- No bit of an opcode is dropped (R61, R62). -/
theorem encode_decodeWord (w : Word) : encode (decodeWord w) = w := by
  simp only [decodeWord]
  split
  case h_1 hc => exact encode_decodeClass0 (Fin.ext hc)
  case h_2 hc | h_3 hc | h_11 hc | h_12 hc => exact encodeNNN_of_cls (Fin.ext hc)
  case h_4 hc | h_5 hc | h_7 hc | h_8 hc | h_13 hc => exact encodeXNN_of_cls (Fin.ext hc)
  case h_6 hc | h_10 hc => exact encode_ifLowNibbleZero fun hn => ofNibbles_of_n (Fin.ext hc) hn
  case h_9 hc => exact encode_decodeClass8 (Fin.ext hc)
  case h_14 hc => exact ofNibbles_of_n (Fin.ext hc) rfl
  case h_15 hc => exact encode_decodeClassE (Fin.ext hc)
  case h_16 =>
    have hlt := (fieldsOf w).cls.isLt
    simp only [imp_false] at *
    exact encode_decodeClassF (Fin.ext (show _ = 15 by omega))

end Sys2Proof
end

section
/-! SUPPORT. Recognized opcodes (R64, R66), and with them the two directions of the round trip between opcodes and
instructions. -/

namespace Sys2Proof

/-- The opcode of every instruction is admitted by the rows of its mnemonic (R65). -/
theorem encodesRow : ∀ i : Instr, Laws.EncodesRow.Statement i
  | .cls => Laws.EncodesRow.cls
  | .ret => Laws.EncodesRow.ret
  | .jp nnn => Laws.EncodesRow.jp nnn
  | .call nnn => Laws.EncodesRow.call nnn
  | .seI x nn => Laws.EncodesRow.seI x nn
  | .sneI x nn => Laws.EncodesRow.sneI x nn
  | .seR x y => Laws.EncodesRow.seR x y
  | .ldI x nn => Laws.EncodesRow.ldI x nn
  | .addI x nn => Laws.EncodesRow.addI x nn
  | .ldR x y => Laws.EncodesRow.ldR x y
  | .or x y => Laws.EncodesRow.or x y
  | .and x y => Laws.EncodesRow.and x y
  | .xor x y => Laws.EncodesRow.xor x y
  | .addR x y => Laws.EncodesRow.addR x y
  | .sub x y => Laws.EncodesRow.sub x y
  | .shr x y => Laws.EncodesRow.shr x y
  | .subn x y => Laws.EncodesRow.subn x y
  | .shl x y => Laws.EncodesRow.shl x y
  | .sneR x y => Laws.EncodesRow.sneR x y
  | .ldA nnn => Laws.EncodesRow.ldA nnn
  | .jpV0 nnn => Laws.EncodesRow.jpV0 nnn
  | .rnd x nn => Laws.EncodesRow.rnd x nn
  | .drw x y n => Laws.EncodesRow.drw x y n
  | .skp x => Laws.EncodesRow.skp x
  | .sknp x => Laws.EncodesRow.sknp x
  | .ldDt x => Laws.EncodesRow.ldDt x
  | .ldK x => Laws.EncodesRow.ldK x
  | .stDt x => Laws.EncodesRow.stDt x
  | .stSt x => Laws.EncodesRow.stSt x
  | .addA x => Laws.EncodesRow.addA x
  | .ldF x => Laws.EncodesRow.ldF x
  | .bcd x => Laws.EncodesRow.bcd x
  | .stm x => Laws.EncodesRow.stm x
  | .ldm x => Laws.EncodesRow.ldm x
  | .nopU w => Laws.EncodesRow.nopU w

/-- A row admits exactly the opcodes that decode to its mnemonic (R64, R65). -/
theorem admits_iff_mnemonicOf (w : Word) {r : OpcodeRow} (hr : r ∈ opcodeRows) :
    r.admits w = true ↔ mnemonicOf (decodeWord w) = r.mnemonic := by
  refine ⟨opcodeRows_decode r hr w, fun h => ?_⟩
  have hadmits := encodesRow (decodeWord w) r hr h.symm
  rwa [encode_decodeWord] at hadmits

theorem recognized_iff (w : Word) : recognized w = true ↔ ∃ r ∈ opcodeRows, mnemonicOf (decodeWord w) = r.mnemonic := by
  rw [recognized, List.any_eq_true]
  exact exists_congr fun r => and_congr_right (admits_iff_mnemonicOf w)

/-- NOP.U is the one mnemonic without a row (R65, R66). -/
theorem exists_row_iff (i : Instr) : (∃ r ∈ opcodeRows, mnemonicOf i = r.mnemonic) ↔ ∀ v, i ≠ .nopU v := by
  cases i with
  | nopU v => simpa [mnemonicOf] using (by decide : ∀ r ∈ opcodeRows, "NOP.U" ≠ r.mnemonic)
  | _ => simp only [mnemonicOf, ne_eq, reduceCtorEq, not_false_eq_true, implies_true, iff_true]; decide

/-- An opcode that decodes to NOP.U is the word the instruction carries. -/
theorem decodeWord_eq_nopU {w v : Word} (h : decodeWord w = .nopU v) : v = w := by
  have hw := encode_decodeWord w
  rwa [h] at hw

/-- The unrecognized opcodes are those that decode to NOP.U (R66, R140). -/
theorem recognized_eq_false_iff (w : Word) : recognized w = false ↔ decodeWord w = .nopU w := by
  rw [← Bool.not_eq_true, recognized_iff, exists_row_iff, not_forall_not]
  exact ⟨fun ⟨v, hv⟩ => (decodeWord_eq_nopU hv) ▸ hv, fun h => ⟨w, h⟩⟩

theorem wf_decodeWord (w : Word) : (decodeWord w).wf = true := by
  cases h : decodeWord w with
  | nopU v =>
    obtain rfl := decodeWord_eq_nopU h
    rw [Instr.wf, (recognized_eq_false_iff v).2 h]
    rfl
  | _ => rfl

/-- Settles O2: the encoder undoes the decoder, and NOP.U is decoded only from an unrecognized word. -/
theorem encodeOfDecode : Obligations.EncodeOfDecode := fun w => ⟨wf_decodeWord w, encode_decodeWord w⟩

/-- Settles O1, format by format: the decoder reads back the class, the literal digits and the operands that the encoder
wrote. -/
theorem decodeOfEncode : Obligations.DecodeOfEncode := by
  intro i hi
  cases i with
  | nopU w => exact (recognized_eq_false_iff w).1 (by simpa [Instr.wf] using hi)
  | cls | ret => decide
  | jp _ | call _ | ldA _ | jpV0 _ => simp [encode, decodeWord, fields_encodeNNN]
  | seI _ _ | sneI _ _ | ldI _ _ | addI _ _ | rnd _ _ => simp [encode, decodeWord, fields_encodeXNN]
  | skp _ | sknp _ => simp [encode, decodeWord, decodeClassE, fields_encodeXNN]
  | ldDt _ | ldK _ | stDt _ | stSt _ | addA _ | ldF _ | bcd _ | stm _ | ldm _ =>
    simp [encode, decodeWord, decodeClassF, fields_encodeXNN]
  | drw _ _ _ => simp [encode, decodeWord, fieldsOf, nibbleAt_ofNibbles]
  | seR _ _ | sneR _ _ => simp [encode, decodeWord, ifLowNibbleZero, fieldsOf, nibbleAt_ofNibbles]
  | ldR _ _ | or _ _ | and _ _ | xor _ _ | addR _ _ | sub _ _ | shr _ _ | subn _ _ | shl _ _ =>
    simp [encode, decodeWord, decodeClass8, fieldsOf, nibbleAt_ofNibbles]

/-- Settles O4: a row admits what decodes to its mnemonic, and no two rows carry the same mnemonic. -/
theorem decoderFollowsOpcodeMap : Obligations.DecoderFollowsOpcodeMap := by
  have hdistinct : opcodeRows.Pairwise fun a b => a.mnemonic ≠ b.mnemonic := by decide
  refine ⟨fun w r hr => admits_iff_mnemonicOf w hr, recognized_eq_false_iff, ?_⟩
  refine hdistinct.imp_of_mem fun ha hb hne w ⟨hwa, hwb⟩ => hne ?_
  exact ((admits_iff_mnemonicOf w ha).1 hwa).symm.trans ((admits_iff_mnemonicOf w hb).1 hwb)

/-- Settles O5: each word is the encoding, by the formats of R62, of the instruction it decodes to. -/
theorem writtenWordsDecode : Obligations.WrittenWordsDecode :=
  ⟨decodeOfEncode .cls rfl, decodeOfEncode (.call 0x301#12) rfl, decodeOfEncode (.subn 0xA 0xB) rfl,
    decodeOfEncode (.drw 0x1 0x2 0xF) rfl, decodeOfEncode (.sknp 0x5) rfl, decodeOfEncode (.ldm 0x2) rfl,
    decodeOfEncode (.nopU 0x5121#16) (by decide)⟩

/-! ### The fields as arithmetic (R61) -/

/-- A field of an opcode is a shift and a mask. -/
theorem extractLsb'_toNat_eq_mask (w : Word) (lo len : Nat) :
    (w.extractLsb' lo len).toNat = w.toNat >>> lo &&& (2 ^ len - 1) := by
  rw [BitVec.extractLsb'_toNat, Nat.and_two_pow_sub_one_eq_mod]

theorem nibbleAt_val (w : Word) (lo : Nat) : (nibbleAt w lo).val = w.toNat / 2 ^ lo % 16 := by
  rw [← Nat.shiftRight_eq_div_pow]
  exact BitVec.extractLsb'_toNat lo 4 w

theorem nn_toNat (w : Word) : (fieldsOf w).nn.toNat = w.toNat % 256 := lowByte_toNat w

theorem nnn_toNat (w : Word) : (fieldsOf w).nnn.toNat = w.toNat % 4096 := BitVec.extractLsb'_toNat 0 12 w

/-- Settles O3: each field is a shift and a mask, and the overlaps are arithmetic on quotients and remainders. -/
theorem fieldsAreMaskArithmetic : Obligations.FieldsAreMaskArithmetic := by
  intro w
  have hw := w.isLt
  have hcls : (fieldsOf w).cls.val = w.toNat / 4096 % 16 := nibbleAt_val w 12
  have hx : (fieldsOf w).x.val = w.toNat / 256 % 16 := nibbleAt_val w 8
  have hy : (fieldsOf w).y.val = w.toNat / 16 % 16 := nibbleAt_val w 4
  have hn : (fieldsOf w).n.val = w.toNat / 1 % 16 := nibbleAt_val w 0
  have hnn := nn_toNat w
  have hnnn := nnn_toNat w
  refine ⟨extractLsb'_toNat_eq_mask w 0 12, extractLsb'_toNat_eq_mask w 0 8, extractLsb'_toNat_eq_mask w 0 4,
    extractLsb'_toNat_eq_mask w 8 4, extractLsb'_toNat_eq_mask w 4 4, ?_, by omega, by omega, ?_⟩
  · rw [Nat.shiftRight_eq_div_pow]
    omega
  · have hhigh : (w.extractLsb' 8 8).toNat = 16 * (fieldsOf w).cls.val + (fieldsOf w).x.val := by
      rw [highByte_toNat]
      omega
    rw [← hhigh]
    rfl

end Sys2Proof
end

section
/-! SUPPORT. The step and the end of the instruction (R63, R166, R167, R168). -/

namespace Sys2Proof.Machine

/-- Settles O7: it is the step of a running machine, with the opcode read at pc. -/
theorem stepRunsDecodedInstr : Obligations.StepRunsDecodedInstr := by
  rintro s i u hquit hrun hpc rfl
  exact ⟨step_of_running hquit hrun hpc, takeHostInputs_of_nil⟩

theorem countDown_toNat (b : Byte) : (countDown b).toNat = b.toNat - 1 := by
  have := b.isLt
  rw [countDown, BitVec.toNat_ofNat]
  omega

/-- The tag after events that act in order (R168). -/
theorem actOn_execState : ∀ (es : List HostEvent) (s : State),
    (actOn es s).execState = es.foldl (fun tag e => ExecState.after e tag) s.execState
  | [], _ => rfl
  | e :: es, s => actOn_execState es (s.setExecState (ExecState.after e s.execState))

theorem endIteration_frame (s : State) :
    Frame s (endIteration s) (fun c => c = .delayTimer ∨ c = .soundTimer ∨ c = .redrawFlag ∨ c = .batchCount ∨
      c = .pendingEvents ∨ c = .execState) := by
  intro c hc
  rw [endIteration_eq]
  cases c with
  | delayTimer | soundTimer | redrawFlag | batchCount | pendingEvents | execState => simp at hc
  | _ => rfl

/-- IPT is CLOCK_RATE / 60 rounded up (R12). -/
theorem instrsPerTick_bounds {c : Config} (h : c.legal = true) :
    c.clockRate ≤ 60 * instrsPerTick c ∧ 60 * (instrsPerTick c - 1) < c.clockRate := by
  have hpos := instrsPerTick_pos h
  unfold instrsPerTick at hpos ⊢
  omega

/-- Settles O9: below IPT the end of an instruction counts, and at IPT it is the end of the iteration. -/
theorem endOfInstrCountsAndTicks : Obligations.EndOfInstrCountsAndTicks := by
  refine ⟨fun c => instrsPerTick_bounds, fun s hlt => if_pos hlt, fun s hge => ?_⟩
  have hend : endInstr s = endIteration s := if_neg (by omega)
  rw [hend]
  refine ⟨?_, ?_, ?_, ?_, ?_, ?_, endIteration_frame s⟩ <;> rw [endIteration_eq]
  · exact countDown_toNat s.dt
  · exact countDown_toNat s.st
  · exact actOn_execState s.pendingEvents s

end Sys2Proof.Machine
end

section
/-! SUPPORT. Drawing as XOR with a mask (R81, R82): each stage of the loops inverts the cells of its mask and reports the
lit ones among them, stages with disjoint masks add up, and the whole sprite's mask is `spriteBit`. -/

namespace Sys2Proof.Machine

variable {w h x0 y0 : Nat} {m m' : Nat → Nat → Bool} {p q u : Blit}

/-- A sprite bit is set on a cell: it is within the sprite and the display, and the sprite's own bit there is 1 (R82). -/
theorem spriteBit_eq_true {row : Nat → Byte} {n c r : Nat} : spriteBit w h x0 y0 row n c r = true ↔
    (x0 ≤ c ∧ c < x0 + 8 ∧ c < w ∧ y0 ≤ r ∧ r < y0 + n ∧ r < h) ∧ (row (r - y0)).getLsbD (7 - (c - x0)) = true := by
  rw [spriteBit, Bool.and_eq_true, decide_eq_true_eq]

/-- From `p` to `q`, the cells of the mask `m` of a `w` by `h` display are inverted, and a lit one among them is a
collision (R81). -/
structure Blit.Draws (w h : Nat) (m : Nat → Nat → Bool) (p q : Blit) : Prop where
  rect : q.display.Rect w h
  cell : ∀ c r, q.display.cell c r = (p.display.cell c r ^^ m c r)
  hit : q.hit = true ↔ p.hit = true ∨ ∃ c r, m c r = true ∧ p.display.cell c r = true

theorem Blit.Draws.nothing (hp : p.display.Rect w h) (hm : ∀ c r, m c r = false) : Blit.Draws w h m p p :=
  ⟨hp, by simp [hm], by simp [hm]⟩

/-- A sprite bit that is 1 inverts its cell (R81). -/
theorem Blit.Draws.plot {x y : Nat} (hp : p.display.Rect w h) (hx : x < w) (hy : y < h)
    (hm : ∀ c r, m c r = true ↔ c = x ∧ r = y) : Blit.Draws w h m p (p.plot x y) where
  rect := hp.flip x y
  cell c r := by
    by_cases hcell : c = x ∧ r = y
    · rw [(hm c r).2 hcell, Bool.xor_true, hcell.1, hcell.2]
      exact cell_flip_same (hp.inside hx hy)
    · rw [Bool.eq_false_iff.2 (mt (hm c r).1 hcell), Bool.xor_false]
      exact cell_flip_other p.display hcell
  hit := by simp [Blit.plot, hm]

/-- Two stages whose masks are disjoint draw the union of their masks: the second stage finds its own cells as the first
one found them. -/
theorem Blit.Draws.trans {M : Nat → Nat → Bool} (hpq : Blit.Draws w h m p q) (hqu : Blit.Draws w h m' q u)
    (hdisjoint : ∀ c r, m c r = true → m' c r = false) (hunion : ∀ c r, M c r = (m c r || m' c r)) :
    Blit.Draws w h M p u where
  rect := hqu.rect
  cell c r := by
    rw [hqu.cell, hpq.cell, hunion]
    cases hm : m c r with
    | false => simp
    | true => simp [hdisjoint c r hm]
  hit := by
    have hkept : ∀ c r, m' c r = true → q.display.cell c r = p.display.cell c r := fun c r hm' => by
      have hm : m c r = false := Bool.eq_false_iff.2 fun hm => by simp [hdisjoint c r hm] at hm'
      rw [hpq.cell, hm, Bool.xor_false]
    have hsecond : (∃ c r, m' c r = true ∧ q.display.cell c r = true) ↔
        ∃ c r, m' c r = true ∧ p.display.cell c r = true :=
      exists_congr fun c => exists_congr fun r => and_congr_right fun hm' => by rw [hkept c r hm']
    rw [hqu.hit, hpq.hit, hsecond, or_assoc]
    simp only [hunion, Bool.or_eq_true, or_and_right, exists_or]

/-- One sprite bit, read or skipped, draws its own cell when it is 1 (R81). -/
theorem plotIf_draws {x y : Nat} (hp : p.display.Rect w h) (hx : x < w) (hy : y < h) (bit : Bool) :
    Blit.Draws w h (fun c r => decide (c = x ∧ r = y) && bit) p (if bit then p.plot x y else p) := by
  cases bit with
  | false => exact .nothing hp (by simp)
  | true => exact .plot hp hx hy (by simp)

/-- A sprite row with all but its last `k` bits cleared. -/
def lastBits (b : Byte) (k : Nat) : Byte := (b.setWidth k).setWidth 8

@[simp] theorem lastBits_eight (b : Byte) : lastBits b 8 = b := rfl

/-- The mask of the last `k` bits of a row at height `y`: the columns from the first of these bits on. -/
theorem spriteBit_lastBits {b : Byte} {k c r y : Nat} (hk : k ≤ 8) :
    spriteBit w h x0 y (fun _ => lastBits b k) 1 c r = true ↔
      (x0 + (8 - k) ≤ c ∧ c < x0 + 8 ∧ c < w ∧ r = y ∧ r < h) ∧ b.getLsbD (7 - (c - x0)) = true := by
  simp only [spriteBit_eq_true, lastBits, BitVec.getLsbD_setWidth, Bool.and_eq_true, decide_eq_true_eq, ← and_assoc]
  exact and_congr_left fun _ => by omega

/-- The last `k + 1` bits of a row inside the display are bit `k` at its column and the last `k` bits (R82). -/
theorem spriteBit_lastBits_succ (b : Byte) {k y : Nat} (hk : k + 1 ≤ 8) (hx : x0 + (7 - k) < w) (hy : y < h)
    (c r : Nat) :
    spriteBit w h x0 y (fun _ => lastBits b (k + 1)) 1 c r =
      (decide (c = x0 + (7 - k) ∧ r = y) && b.getLsbD k || spriteBit w h x0 y (fun _ => lastBits b k) 1 c r) := by
  rw [Bool.eq_iff_iff, Bool.or_eq_true, Bool.and_eq_true, decide_eq_true_eq, spriteBit_lastBits hk,
    spriteBit_lastBits (Nat.le_of_succ_le hk)]
  by_cases hc : c = x0 + (7 - k)
  · have hbit : 7 - (c - x0) = k := by omega
    rw [hbit, ← or_and_right]
    exact and_congr_left fun _ => by omega
  · simp only [hc, false_and, false_or]
    exact and_congr_left fun _ => by omega

/-- The last `k` bits of a sprite row draw what a one-row sprite of these bits alone does (R81, R82). -/
theorem bits_draws {y : Nat} (hy : y < h) (b : Byte) : ∀ (k : Nat) (p : Blit), k ≤ 8 → p.display.Rect w h →
    Blit.Draws w h (spriteBit w h x0 y (fun _ => lastBits b k) 1) p (Blit.bits w x0 y b k p)
  | 0, p, hk, hp => .nothing hp fun c r => Bool.eq_false_iff.2 fun hm => by
      have := (spriteBit_lastBits hk).1 hm
      omega
  | k + 1, p, hk, hp => by
    unfold Blit.bits
    split
    case isTrue hclip =>
      refine .nothing hp fun c r => Bool.eq_false_iff.2 fun hm => ?_
      have := (spriteBit_lastBits hk).1 hm
      omega
    case isFalse hinside =>
      have hx : x0 + (7 - k) < w := Nat.lt_of_not_le hinside
      have hk' : k ≤ 8 := Nat.le_of_succ_le hk
      have hfirst := plotIf_draws hp hx hy (b.getLsbD k)
      refine hfirst.trans (bits_draws hy b k _ hk' hfirst.rect) (fun c r hm => ?_) (spriteBit_lastBits_succ b hk hx hy)
      simp only [Bool.and_eq_true, decide_eq_true_eq] at hm
      refine Bool.eq_false_iff.2 fun hm' => ?_
      have := (spriteBit_lastBits hk').1 hm'
      omega

/-- A sprite with a row more is its first row and, one display row lower, the sprite of the other rows (R82). -/
theorem spriteBit_succ (row : Nat → Byte) (n c r : Nat) : spriteBit w h x0 y0 row (n + 1) c r =
    (spriteBit w h x0 y0 (fun _ => row 0) 1 c r || spriteBit w h x0 (y0 + 1) (fun j => row (j + 1)) n c r) := by
  rw [Bool.eq_iff_iff, Bool.or_eq_true]
  simp only [spriteBit_eq_true]
  by_cases hr : r = y0
  · subst hr
    have hnot : ¬ r + 1 ≤ r := by omega
    simp only [Nat.sub_self, hnot, false_and, and_false, or_false]
    exact and_congr_left fun _ => by omega
  · have hlower : y0 ≤ r → r - (y0 + 1) + 1 = r - y0 := by omega
    constructor
    · rintro ⟨hbounds, hset⟩
      exact .inr ⟨by omega, by rwa [hlower (by omega)]⟩
    · rintro (⟨hbounds, -⟩ | ⟨hbounds, hset⟩)
      · omega
      · exact ⟨by omega, by rwa [← hlower (by omega)]⟩

/-- The rows of a sprite from row `r` on draw what a sprite of those rows does, placed `r` rows lower (R81, R82). -/
theorem rows_draws (row : Nat → Byte) : ∀ (k r : Nat) (p : Blit), p.display.Rect w h →
    Blit.Draws w h (spriteBit w h x0 (y0 + r) (fun j => row (j + r)) k) p (Blit.rows w h x0 y0 row k r p)
  | 0, r, p, hp => .nothing hp fun c y => Bool.eq_false_iff.2 fun hm => by
      have := spriteBit_eq_true.1 hm
      omega
  | k + 1, r, p, hp => by
    unfold Blit.rows
    split
    case isTrue hclip =>
      refine .nothing hp fun c y => Bool.eq_false_iff.2 fun hm => ?_
      have := spriteBit_eq_true.1 hm
      omega
    case isFalse hinside =>
      have hfirst := bits_draws (x0 := x0) (Nat.lt_of_not_le hinside) (row r) 8 p (Nat.le_refl 8) hp
      refine hfirst.trans (rows_draws row k (r + 1) _ hfirst.rect) (fun c y hm => ?_) fun c y => ?_
      · refine Bool.eq_false_iff.2 fun hm' => ?_
        have := spriteBit_eq_true.1 hm
        have := spriteBit_eq_true.1 hm'
        omega
      · rw [spriteBit_succ]
        simp only [lastBits_eight, Nat.zero_add, Nat.add_assoc, Nat.add_comm 1 r]

/-- The whole sprite's mask is `spriteBit` (R81, R82). -/
theorem drawSprite_draws {d : Display} (hd : d.Rect w h) (x0 y0 : Nat) (row : Nat → Byte) (n : Nat) :
    Blit.Draws w h (spriteBit w h x0 y0 row n) { display := d, hit := false } (drawSprite d w h x0 y0 row n) :=
  rows_draws (x0 := x0) (y0 := y0) row n 0 { display := d, hit := false } hd

theorem drawSprite_cell {d : Display} (hd : d.Rect w h) (x0 y0 : Nat) (row : Nat → Byte) (n c r : Nat) :
    (drawSprite d w h x0 y0 row n).display.cell c r = (d.cell c r ^^ spriteBit w h x0 y0 row n c r) :=
  (drawSprite_draws hd x0 y0 row n).cell c r

theorem drawSprite_hit {d : Display} (hd : d.Rect w h) (x0 y0 : Nat) (row : Nat → Byte) (n : Nat) :
    (drawSprite d w h x0 y0 row n).hit = true ↔
      ∃ c r, spriteBit w h x0 y0 row n c r = true ∧ d.cell c r = true := by
  simpa using (drawSprite_draws hd x0 y0 row n).hit

/-- Settles O18: the loops draw the mask `spriteBit`, starting with no collision. -/
theorem drawLoopsEqualClosedForm : Obligations.DrawLoopsEqualClosedForm := fun _ _ _ x0 y0 row n hlen hrow =>
  ⟨drawSprite_cell ⟨hlen, hrow⟩ x0 y0 row n, drawSprite_hit ⟨hlen, hrow⟩ x0 y0 row n⟩

end Sys2Proof.Machine
end

section
/-! SUPPORT. Two draws at one place (R81): the second inverts the same cells again. -/

namespace Sys2Proof.Machine

/-- Rectangular displays of one size with equal cells are equal. -/
theorem Display.Rect.ext {w h : Nat} {d e : Display} (hd : d.Rect w h) (he : e.Rect w h)
    (hcell : ∀ c r, d.cell c r = e.cell c r) : d = e := by
  obtain ⟨hdlen, hdrow⟩ := hd
  obtain ⟨helen, herow⟩ := he
  refine List.ext_getElem (hdlen.trans helen.symm) fun r hr hr' => ?_
  have hwidth := (hdrow _ (List.getElem_mem hr)).trans (herow _ (List.getElem_mem hr')).symm
  refine List.ext_getElem hwidth fun c hc hc' => ?_
  simpa [Display.cell, hr, hr', hc, hc'] using hcell c r

/-- Settles O19: the second draw inverts the cells of the same mask, on the display the first one left. -/
theorem drawTwiceRestoresDisplay : Obligations.DrawTwiceRestoresDisplay := by
  intro d w h x0 y0 row n hlen hrow first second
  have hd : d.Rect w h := ⟨hlen, hrow⟩
  have hfirst : first.display.Rect w h := drawSprite_rect hd w h x0 y0 row n
  refine ⟨(drawSprite_rect hfirst w h x0 y0 row n).ext hd fun c r => ?_, ?_, fun hclear => ?_⟩
  · rw [drawSprite_cell hfirst, drawSprite_cell hd, Bool.xor_assoc, Bool.xor_self, Bool.xor_false]
  · refine (drawSprite_hit hfirst x0 y0 row n).trans (exists_congr fun c => exists_congr fun r => ?_)
    refine and_congr_right fun hbit => ?_
    rw [drawSprite_cell hd, hbit, Bool.xor_true, Bool.not_eq_true']
  · refine Bool.eq_false_iff.2 fun hhit => ?_
    obtain ⟨c, r, -, hlit⟩ := (drawSprite_hit hd x0 y0 row n).1 hhit
    exact Bool.false_ne_true ((hclear c r).symm.trans hlit)

end Sys2Proof.Machine
end

section
/-! SUPPORT. The display instructions (R80, R81). -/

namespace Sys2Proof.Machine

/-- Settles O16: the new display is blank, and CLS writes only it and redraw_needed. -/
theorem clsClearsDisplay : Obligations.ClsClearsDisplay := by
  refine ⟨encodedAs_cls, by decide, fun s => ⟨_, rfl, fun x y => ?_, ?_, ?_, rfl, ?_⟩⟩
  · exact cell_blankDisplay s.cfg.displayW s.cfg.displayH x y
  · exact (blankDisplay_rect s.cfg.displayW s.cfg.displayH).1
  · exact (blankDisplay_rect s.cfg.displayW s.cfg.displayH).2
  · exact instructionsWriteOnlyTheirOwn .cls s _ rfl

/-- The collision flag is 1 on a collision and else 0 (R81). -/
theorem collisionFlag_cases (hit : Bool) :
    (collisionFlag hit = 1#8 ∨ collisionFlag hit = 0#8) ∧ (collisionFlag hit = 1#8 ↔ hit = true) := by
  cases hit <;> decide

/-- A checked access whose range leaves memory raises (R45, R153). -/
theorem checkRange_outside {base len : Nat} (k : Result) (hlen : len ≠ 0) (hout : 4096 < base + len) :
    checkRange base len k = .fault (.memoryOutOfRange (max base 4096)) := by
  rcases checkRange_cases base len k with ⟨-, -, hf⟩ | ⟨hin, -⟩
  · exact hf
  · omega

/-- What DRW draws: the N bytes from I, at the registers' values modulo the resolution (R81). -/
def State.sprite (s : State) (x y : Reg) (n : Fin 16) : Blit :=
  drawSprite s.display s.cfg.displayW s.cfg.displayH ((s.getV x).toNat % s.cfg.displayW)
    ((s.getV y).toNat % s.cfg.displayH) (fun r => s.readByte (s.i.toNat + r)) n.val

/-- DRW on a range inside memory, or on none, writes the collision flag, the drawn display and redraw_needed (R81). -/
theorem exec_drw_inside {s : State} {x y : Reg} {n : Fin 16} (h : n.val = 0 ∨ s.i.toNat + n.val ≤ 4096) :
    exec (.drw x y n) s =
      .next (((s.setV vF (collisionFlag (s.sprite x y n).hit)).setDisplay (s.sprite x y n).display).setRedraw true) := by
  rcases checkRange_cases s.i.toNat n.val _ with ⟨hn, hout, -⟩ | ⟨-, hk⟩
  · omega
  · exact hk

/-- Settles O17: inside memory the draw is that of the loops at the sampled coordinates, outside the check raises. -/
theorem drwXorsSpriteAndReportsCollision : Obligations.DrwXorsSpriteAndReportsCollision := by
  refine ⟨encodedAs_drw, fun s x y n hlen hrow hrange => ?_, fun s x y n => checkRange_outside _⟩
  have hexec := exec_drw_inside (x := x) (y := y) hrange
  have hd : s.display.Rect s.cfg.displayW s.cfg.displayH := ⟨hlen, hrow⟩
  obtain ⟨hflag, hflagOne⟩ := collisionFlag_cases (s.sprite x y n).hit
  refine ⟨_, hexec, drawSprite_cell hd _ _ _ n.val, ?_, ?_, rfl, instructionsWriteOnlyTheirOwn _ s _ hexec⟩
  · simpa using hflag
  · simpa using hflagOne.trans (drawSprite_hit hd _ _ _ n.val)

end Sys2Proof.Machine
end

section
/-! SUPPORT. Jumps and skips (R91, R93 to R98): where pc goes, and that nothing else changes. -/

namespace Sys2Proof.Machine

variable {s : State}

theorem zextAddr_toNat (nnn : Addr12) : (zextAddr nnn).toNat = nnn.toNat :=
  BitVec.toNat_setWidth_of_le (by decide)

/-- The sum of BNNN fits in 16 bits (R97). -/
theorem State.offsetTarget_toNat (s : State) (nnn : Addr12) :
    (s.offsetTarget nnn).toNat = nnn.toNat + (s.getV 0).toNat := by
  have haddr := nnn.isLt
  have hbyte := (s.getV 0).isLt
  have hzext : (zextByte (s.getV 0)).toNat = (s.getV 0).toNat := BitVec.toNat_setWidth_of_le (by decide)
  rw [State.offsetTarget, BitVec.toNat_add, zextAddr_toNat, hzext]
  omega

theorem State.setPc_frame (s : State) (w : Word) : Frame s (s.setPc w) (fun c => c = .pc) :=
  Write.frame (W := fun c => c = .pc) (.pc w rfl)

/-- A skip adds 2 to the advanced pc exactly when its condition holds (R98). -/
theorem completes_skip {i : Instr} {c : Bool} {p : Prop} [Decidable p] (h : exec i s = .next (s.skipIf c))
    (hc : c = true ↔ p) :
    Completes i s fun t => t.pc = (if p then s.pc + 2#16 else s.pc) ∧ Frame s t (fun c => c = .pc) := by
  rw [State.skipIf_eq] at h
  exact ⟨_, h, by simp only [State.setPc_pc, hc], s.setPc_frame _⟩

/-- Settles O21: JP only sets pc, to the zero-extended address. -/
theorem jpSetsPc : Obligations.JpSetsPc :=
  ⟨encodedAs_jp, fun s nnn => ⟨_, rfl, zextAddr_toNat nnn, s.setPc_frame _⟩⟩

/-- Settles O25: JP.V0 only sets pc, to a sum that does not wrap. -/
theorem jpV0AddsOffset : Obligations.JpV0AddsOffset :=
  ⟨encodedAs_jpV0, fun s nnn => ⟨_, rfl, s.offsetTarget_toNat nnn, s.setPc_frame _⟩⟩

/-- Settles O23: both are skips, on equality with NN and on its negation. -/
theorem skipsOnImmediate : Obligations.SkipsOnImmediate :=
  ⟨encodedAs_seI, encodedAs_sneI, fun _ _ _ => ⟨completes_skip rfl beq_iff_eq, completes_skip rfl bne_iff_ne⟩⟩

/-- In class 5 and class 9 a low nibble other than 0 matches no row (R66, decision D8). -/
theorem ifLowNibbleZero_ofNibbles (c x y : Fin 16) {n : Fin 16} (hn : n ≠ 0) (w : Word) (i : Instr) :
    ifLowNibbleZero (fieldsOf (ofNibbles c x y n)) w i = .nopU w := by
  obtain ⟨-, -, -, hlow⟩ := nibbleAt_ofNibbles c x y n
  exact if_neg fun h => hn (Fin.ext (hlow ▸ h))

/-- Settles O24: both are skips, on equality of two registers and on its negation, and their low nibble is literal. -/
theorem skipsOnRegisters : Obligations.SkipsOnRegisters := by
  refine ⟨encodedAs_seR, encodedAs_sneR, fun x y n hn => ⟨?_, ?_⟩, fun _ _ _ =>
    ⟨completes_skip rfl beq_iff_eq, completes_skip rfl bne_iff_ne⟩⟩
  · rw [← ifLowNibbleZero_ofNibbles 0x5 x y hn _ (.seR x y)]
    simp [decodeWord, fieldsOf, nibbleAt_ofNibbles]
  · rw [← ifLowNibbleZero_ofNibbles 0x9 x y hn _ (.sneR x y)]
    simp [decodeWord, fieldsOf, nibbleAt_ofNibbles]

end Sys2Proof.Machine
end

section
/-! SUPPORT. RET and CALL on the stack (R90, R92), and the two as consecutive steps of a run (source property S7). -/

namespace Sys2Proof.Machine

variable {s t : State}

/-- RET with an entry in use takes the top one (R90). -/
theorem exec_ret_of_top {top : Fin 16} (h : s.sp.val = top.val + 1) :
    exec .ret s = .next { s with sp := top.castSucc, pc := s.stack[top.val] } := by
  have htop : s.sp.val - 1 = top.val := by omega
  rcases s.popPc_cases with ⟨hempty, -⟩ | ⟨_, -, hn⟩
  · omega
  · simp only [htop] at hn
    exact hn

/-- RET on an empty stack raises (R152). -/
theorem exec_ret_of_empty (h : s.sp.val = 0) : exec .ret s = .fault .stackUnderflow := by
  rcases s.popPc_cases with ⟨-, hf⟩ | ⟨-, hne, -⟩
  · exact hf
  · exact absurd h hne

/-- CALL below the capacity stores the advanced pc at the cursor and jumps (R92). -/
theorem exec_call_of_room {j : Fin 16} (nnn : Addr12) (hj : s.sp.val = j.val)
    (hroom : s.sp.val < s.cfg.stackCapacity.toNat) :
    exec (.call nnn) s =
      .next { s with stack := s.stack.set j.val s.pc, sp := j.succ, pc := zextAddr nnn } := by
  rcases s.push_cases s.pc with ⟨hfull, -⟩ | ⟨_, -, hn⟩
  · omega
  · simp only [exec, execCall, hn, andThen_next, hj]
    rfl

/-- CALL at the capacity raises (R151). -/
theorem exec_call_of_full (nnn : Addr12) (h : s.sp.val = s.cfg.stackCapacity.toNat) :
    exec (.call nnn) s = .fault .stackOverflow := by
  rcases s.push_cases s.pc with ⟨-, hf⟩ | ⟨-, hroom, -⟩
  · simp only [exec, execCall, hf, andThen_fault]
  · omega

/-- Settles O20: a RET that pops writes pc and the cursor, and 00EE is the one word of 0XEE that is RET. -/
theorem retPopsPc : Obligations.RetPopsPc :=
  ⟨encodedAs_ret, by decide, fun _ => exec_ret_of_empty, fun s _ h =>
    ⟨_, exec_ret_of_top h, rfl, rfl, instructionsWriteOnlyTheirOwn _ s _ (exec_ret_of_top h)⟩⟩

/-- Settles O22: CALL leaves the advanced pc on top of the stack, and that is the entry a RET takes. -/
theorem callPushesPc : Obligations.CallPushesPc := by
  refine ⟨encodedAs_call, fun _ => exec_call_of_full, fun s nnn j hj hroom => ?_⟩
  have hexec := exec_call_of_room nnn hj hroom
  refine ⟨_, hexec, Vector.getElem_set_self _, congrArg (· + 1) hj.symm, zextAddr_toNat nnn, ?_, fun u hstack hsp => ?_⟩
  · refine (instructionsWriteOnlyTheirOwn _ s _ hexec).mono fun c hc => ?_
    rcases hc with hpc | hcursor | ⟨k, hk, rfl⟩
    · exact .inl hpc
    · exact .inr (.inl hcursor)
    · exact .inr (.inr (congrArg _ (Fin.ext (hk.trans hj))))
  · refine ⟨_, exec_ret_of_top (top := j) (congrArg Fin.val hsp), ?_, Fin.ext hj.symm⟩
    simp [hstack]

/-! ### Two steps -/

@[simp] theorem endInstr_hostInputs (s : State) : (endInstr s).hostInputs = s.hostInputs := by
  rcases endInstr_cases s with ⟨-, h⟩ | ⟨-, h⟩ <;> simp [h, endIteration_eq]

@[simp] theorem readByte_endInstr (s : State) (a : Nat) : (endInstr s).readByte a = s.readByte a := by
  rcases endInstr_cases s with ⟨-, h⟩ | ⟨-, h⟩
  · rw [h, State.readByte_setBatchCount]
  · rw [h]
    exact endIteration_frame s (.byte a) (by simp)

/-- With no event waiting, the end of an instruction keeps the tag (R168). -/
theorem endInstr_execState_of_no_events (h : s.pendingEvents = []) : (endInstr s).execState = s.execState := by
  rcases endInstr_cases s with ⟨-, hend⟩ | ⟨-, hend⟩
  · rw [hend, State.setBatchCount_execState]
  · rw [hend, endIteration_eq, h]
    rfl

/-- A step of a running machine with nothing due from the host is the instruction at pc, when that completes, and its end
(R46, R63). -/
theorem step_of_completes {i : Instr} {P : State → Prop} (hrun : s.execState = .running) (hinputs : s.hostInputs = [])
    (hpc : s.pc.toNat ≤ 4093) (hi : decodeWord s.opcodeAtPc = i) (h : Completes i (s.setPc (s.pc + 2#16)) P) :
    ∃ t, exec i (s.setPc (s.pc + 2#16)) = .next t ∧ step s = .next (endInstr t) ∧ P t := by
  obtain ⟨t, hexec, ht⟩ := h
  have htaken := takeHostInputs_of_nil hinputs
  have hquit : s.execState ≠ .quit := fun hq => nomatch hrun.symm.trans hq
  refine ⟨t, hexec, ?_, ht⟩
  rw [step_of_running hquit (htaken.symm ▸ hrun) (htaken.symm ▸ hpc), htaken, hi, hexec, andThen_next]

theorem run_two {u : State} (hst : step s = .next t) (htu : step t = .next u) : Sys2Proof.core.run 2 s = .next u := by
  have hst' : Sys2Proof.core.step s = .next t := hst
  have htu' : Sys2Proof.core.step t = .next u := htu
  simp only [Host.Core.run, hst', htu']

/-- Settles O26: the CALL's step keeps memory and leaves the machine running at NNN, with the return address on top of the
stack for the RET's step. -/
theorem callThenRetReturns : Obligations.CallThenRetReturns := by
  intro s nnn hrun hinputs hevents hpc hnnn hroom hcall hret
  obtain ⟨-, -, hcalls⟩ := callPushesPc
  have hsp : s.sp.val < 16 := hroom.trans_le (StackCapacity.toNat_le _).2
  obtain ⟨t, hexec, hstep, -, -, htarget, hframe, hreturns⟩ :=
    step_of_completes hrun hinputs hpc hcall (hcalls (s.setPc (s.pc + 2#16)) nnn ⟨s.sp.val, hsp⟩ rfl hroom)
  obtain ⟨-, htag, -, -, htevents, htinputs⟩ := exec_keepsHostElements hexec
  have hrun' : (endInstr t).execState = .running :=
    (endInstr_execState_of_no_events (htevents.trans hevents)).trans (htag.trans hrun)
  have hinputs' : (endInstr t).hostInputs = [] := (endInstr_hostInputs t).trans (htinputs.trans hinputs)
  have hpc' : (endInstr t).pc.toNat = nnn.toNat := by rw [endInstr_pc, htarget]
  have hmem (a : Nat) : (endInstr t).readByte a = s.readByte a :=
    (readByte_endInstr t a).trans (hframe (.byte a) (by simp))
  have hret' : decodeWord (endInstr t).opcodeAtPc = .ret := by rw [State.opcodeAtPc, hpc', hmem, hmem, hret]
  obtain ⟨v, -, hstep', hvpc, hvsp⟩ := step_of_completes hrun' hinputs' (hpc'.trans_le hnnn) hret'
    (hreturns _ (endInstr_stack t) (endInstr_sp t))
  exact ⟨_, run_two hstep hstep', (endInstr_pc v).trans hvpc, (endInstr_sp v).trans hvsp⟩

end Sys2Proof.Machine
end

section
/-! SUPPORT. The flags and the arithmetic modulo 256 as numbers (R106 to R111). -/

namespace Sys2Proof.Machine

@[simp] theorem mod256_toNat (n : Nat) : (mod256 n).toNat = n % 256 := BitVec.toNat_ofNat n 8

@[simp] theorem flagByte_decide_toNat (p : Prop) [Decidable p] : (flagByte (decide p)).toNat = if p then 1 else 0 := by
  by_cases h : p <;> simp [flagByte, h]

theorem carryFlag_toNat (a b : Byte) : (carryFlag a b).toNat = if a.toNat + b.toNat > 255 then 1 else 0 :=
  flagByte_decide_toNat _

theorem noBorrowFlag_toNat (a b : Byte) : (noBorrowFlag a b).toNat = if a.toNat ≥ b.toNat then 1 else 0 :=
  flagByte_decide_toNat _

theorem wrappingSub_toNat (a b : Byte) : (wrappingSub a b).toNat = (a.toNat + 256 - b.toNat) % 256 := mod256_toNat _

theorem lowBitFlag_toNat (a : Byte) : (lowBitFlag a).toNat = a.toNat % 2 :=
  (BitVec.toNat_and a 1#8).trans (Nat.and_one_is_mod _)

/-- A byte halved is below 128, so bit 7 is all that is left of it after a shift by 7 (R110). -/
theorem highBitFlag_toNat (a : Byte) : (highBitFlag a).toNat = a.toNat / 128 := by
  have hbit : (highBitFlag a).toNat = a.toNat / 128 % 2 := by
    rw [highBitFlag, BitVec.toNat_ushiftRight, BitVec.toNat_and, Nat.shiftRight_and_distrib, Nat.shiftRight_eq_div_pow]
    exact Nat.and_one_is_mod _
  have hlt := a.isLt
  omega

theorem shiftRight_one_toNat (a : Byte) : (a >>> 1).toNat = a.toNat / 2 := by
  rw [BitVec.toNat_ushiftRight, Nat.shiftRight_eq_div_pow]

theorem shiftLeft_one_toNat (a : Byte) : (a <<< 1).toNat = 2 * a.toNat % 256 := by
  rw [BitVec.toNat_shiftLeft, Nat.shiftLeft_eq, Nat.mul_comm]

/-- The shift source by mode (R108, R110). -/
theorem State.shiftSource_toNat (s : State) (x y : Reg) :
    (s.shiftSource x y).toNat = if s.cfg.extMode = .original then (s.getV y).toNat else (s.getV x).toNat := by
  unfold State.shiftSource
  cases s.cfg.extMode <;> rfl

end Sys2Proof.Machine
end

section
/-! SUPPORT. Register loads, arithmetic and logic (R100 to R112): the values each meaning leaves and its frame. -/

namespace Sys2Proof.Machine

variable {s : State}

theorem State.setV_frame (s : State) (r : Reg) (b : Byte) : Frame s (s.setV r b) (fun c => c = .reg r) :=
  Write.frame (W := fun c => c = .reg r) (.reg r b rfl)

/-- An instruction that only writes V[x] leaves the written byte there and everything else as it was (R100 to R102). -/
theorem completes_setV {i : Instr} {x : Reg} {b : Byte} (h : exec i s = .next (s.setV x b)) :
    Completes i s fun t => t.getV x = b ∧ Frame s t (fun c => c = .reg x) :=
  ⟨_, h, by simp, s.setV_frame x b⟩

/-- Settles O27: both loads are one register write. -/
theorem loadsWriteOneRegister : Obligations.LoadsWriteOneRegister :=
  ⟨encodedAs_ldI, encodedAs_ldR, fun _ _ _ => completes_setV rfl, fun _ _ _ => completes_setV rfl⟩

/-- Settles O28: ADD.I is one register write, of the exact sum reduced modulo 256. -/
theorem addImmediateWrapsWithoutFlag : Obligations.AddImmediateWrapsWithoutFlag := by
  refine ⟨encodedAs_addI, fun s x nn => ?_⟩
  obtain ⟨t, hexec, hval, hframe⟩ :=
    completes_setV (s := s) (i := .addI x nn) (b := mod256 (exactSum (s.getV x) nn)) rfl
  exact ⟨t, hexec, hval ▸ mod256_toNat _, hframe⟩

/-! ### Bitwise operations -/

/-- The result, then the flag clear of mode 0 (R103 to R105). -/
theorem completes_logic {i : Instr} {x : Reg} {res : Byte} (h : exec i s = .next (s.setV x res).clearFlagInOriginal) :
    Completes i s (LogicLeaves s x res) := by
  have hwrites : Writes (fun c => c = .reg x ∨ c = .reg vF) s (s.setV x res).clearFlagInOriginal :=
    .head (.reg _ _ (.inl rfl)) (Writes.clearFlagInOriginal fun _ => .inr rfl)
  refine ⟨_, h, ?_, ?_, hwrites.frame⟩
  all_goals
    intro hmode
    rcases (s.setV x res).clearFlagInOriginal_cases with ⟨hm, hclear⟩ | ⟨hm, hclear⟩
  · exact ⟨by simp [hclear], fun hx => by simp [hclear, hx]⟩
  · exact nomatch hmode.symm.trans hm
  · exact nomatch hmode.symm.trans hm
  · exact ⟨by simp [hclear], fun hx => by simp [hclear, hx.symm]⟩

/-- Settles O29: the three operations differ only in the bitwise result. -/
theorem logicOpsAndTheirFlagClear : Obligations.LogicOpsAndTheirFlagClear :=
  ⟨encodedAs_or, encodedAs_and, encodedAs_xor, fun _ _ _ => ⟨completes_logic rfl, completes_logic rfl, completes_logic rfl⟩⟩

/-! ### Addition and subtraction -/

/-- Settles O30: the sum is held while VF is written, so with X = 15 the sum overwrites the carry (decision D6). -/
theorem addRegistersWithCarry : Obligations.AddRegistersWithCarry := by
  refine ⟨encodedAs_addR, fun s x y => ⟨_, rfl, ?_, fun hx => ?_, instructionsWriteOnlyTheirOwn (.addR x y) s _ rfl⟩⟩
  · simp [exactSum]
  · simp [hx.symm, carryFlag_toNat]

/-- V[x] <- V[p] − V[q] modulo 256, taken after the no-borrow flag is in VF: SUB and SUBN up to their operands (R107,
R109, R112). -/
def State.subtractInto (s : State) (x p q : Reg) : State :=
  let t := s.setV vF (noBorrowFlag (s.getV p) (s.getV q))
  t.setV x (wrappingSub (t.getV p) (t.getV q))

theorem exec_sub (s : State) (x y : Reg) : exec (.sub x y) s = .next (s.subtractInto x x y) := rfl

theorem exec_subn (s : State) (x y : Reg) : exec (.subn x y) s = .next (s.subtractInto x y x) := rfl

/-- The flag stays in VF unless the difference is written over it (R112, decision D6). -/
theorem State.subtractInto_flag_toNat {x : Reg} (hx : x ≠ vF) (p q : Reg) :
    ((s.subtractInto x p q).getV vF).toNat = if (s.getV p).toNat ≥ (s.getV q).toNat then 1 else 0 := by
  simp [State.subtractInto, hx.symm, noBorrowFlag_toNat]

theorem State.subtractInto_generic_toNat {p q : Reg} (x : Reg) (hp : p ≠ vF) (hq : q ≠ vF) :
    ((s.subtractInto x p q).getV x).toNat = ((s.getV p).toNat + 256 - (s.getV q).toNat) % 256 := by
  simp [State.subtractInto, hp, hq, wrappingSub_toNat]

/-- With VF as the left operand the new flag is subtracted from (R112, decision D6). -/
theorem State.subtractInto_left_toNat {p q : Reg} (x : Reg) (hp : p = vF) (hq : q ≠ vF) :
    ((s.subtractInto x p q).getV x).toNat =
      ((if (s.getV p).toNat ≥ (s.getV q).toNat then 1 else 0) + 256 - (s.getV q).toNat) % 256 := by
  simp [State.subtractInto, hp, hq, wrappingSub_toNat, noBorrowFlag_toNat]

/-- With VF as the right operand the new flag is subtracted (R112, decision D6). -/
theorem State.subtractInto_right_toNat {p q : Reg} (x : Reg) (hp : p ≠ vF) (hq : q = vF) :
    ((s.subtractInto x p q).getV x).toNat =
      ((s.getV p).toNat + 256 - (if (s.getV p).toNat ≥ (s.getV q).toNat then 1 else 0)) % 256 := by
  simp [State.subtractInto, hp, hq, wrappingSub_toNat, noBorrowFlag_toNat]

theorem State.subtractInto_self_toNat (x p : Reg) : ((s.subtractInto x p p).getV x).toNat = 0 := by
  simp [State.subtractInto, wrappingSub_toNat]

/-- Settles O31: V[X] is the left operand of the subtraction. -/
theorem subtractWithNoBorrowFlag : Obligations.SubtractWithNoBorrowFlag := by
  refine ⟨encodedAs_sub, fun s x y => ⟨_, exec_sub s x y,
    fun hx hy => ⟨State.subtractInto_generic_toNat x hx hy, State.subtractInto_flag_toNat hx x y⟩,
    fun hx hy => ⟨State.subtractInto_right_toNat x hx hy, State.subtractInto_flag_toNat hx x y⟩,
    fun hx hy => ?_, fun hx hy => ?_, instructionsWriteOnlyTheirOwn _ s _ (exec_sub s x y)⟩⟩
  · subst hx
    exact State.subtractInto_left_toNat vF rfl hy
  · subst hx hy
    exact State.subtractInto_self_toNat vF vF

/-- Settles O32: V[X] is the right operand of the subtraction. -/
theorem reverseSubtractWithNoBorrowFlag : Obligations.ReverseSubtractWithNoBorrowFlag := by
  refine ⟨encodedAs_subn, fun s x y => ⟨_, exec_subn s x y,
    fun hx hy => ⟨State.subtractInto_generic_toNat x hy hx, State.subtractInto_flag_toNat hx y x⟩,
    fun hx hy => ⟨State.subtractInto_left_toNat x hy hx, State.subtractInto_flag_toNat hx y x⟩,
    fun hx hy => ?_, fun hx hy => ?_, instructionsWriteOnlyTheirOwn _ s _ (exec_subn s x y)⟩⟩
  · subst hx
    exact State.subtractInto_right_toNat vF hy rfl
  · subst hx hy
    exact State.subtractInto_self_toNat vF vF

/-! ### Shifts -/

/-- The result, then the bit shifted out over it where both name VF (R108, R110). -/
theorem completes_shift {i : Instr} {x : Reg} {res flag : Byte} {shifted carry : Nat}
    (h : exec i s = .next ((s.setV x res).setV vF flag)) (hres : res.toNat = shifted) (hflag : flag.toNat = carry) :
    Completes i s (ShiftLeaves s x shifted carry) := by
  have hwrites : Writes (fun c => c = .reg x ∨ c = .reg vF) s ((s.setV x res).setV vF flag) :=
    .tail (.single (.reg _ _ (.inl rfl))) (.reg _ _ (.inr rfl))
  exact ⟨_, h, by simp [hflag], fun hx => by simp [hx, hres], hwrites.frame⟩

/-- Settles O33: both shifts take the source the mode names, and its halves, doubles and end bits are arithmetic. -/
theorem shiftsAndTheirSource : Obligations.ShiftsAndTheirSource := by
  refine ⟨encodedAs_shr, encodedAs_shl, fun s x y => ?_⟩
  rw [← s.shiftSource_toNat x y]
  exact ⟨completes_shift rfl (shiftRight_one_toNat _) (lowBitFlag_toNat _),
    completes_shift rfl (shiftLeft_one_toNat _) (highBitFlag_toNat _)⟩

end Sys2Proof.Machine
end

section
/-! SUPPORT. The index instructions (R120 to R122): each is one write of I. -/

namespace Sys2Proof.Machine

variable {s : State}

theorem zextByte_toNat (b : Byte) : (zextByte b).toNat = b.toNat := BitVec.toNat_setWidth_of_le (by decide)

/-- Five times a byte fits in 16 bits, so the address of a glyph does not wrap (R122). -/
theorem glyphAddress_toNat (b : Byte) : (glyphAddress b).toNat = 5 * b.toNat := by
  have hb := b.isLt
  rw [glyphAddress, BitVec.toNat_mul, zextByte_toNat, BitVec.toNat_ofNat]
  omega

/-- An instruction that only writes I leaves the written word there and everything else as it was (R120 to R122). -/
theorem completes_setIndex {i : Instr} {w : Word} {n : Nat} (h : exec i s = .next (s.setIndex w)) (hw : w.toNat = n) :
    Completes i s fun t => t.i.toNat = n ∧ Frame s t (fun c => c = .index) :=
  ⟨_, h, hw, Write.frame (W := fun c => c = .index) (.index w rfl)⟩

/-- Settles O34: each is one write of I, and only the sum of ADD.A can wrap. -/
theorem indexWrites : Obligations.IndexWrites := by
  refine ⟨encodedAs_ldA, encodedAs_addA, encodedAs_ldF, fun s nnn => ?_, fun s x => ?_, fun s x => ?_⟩
  · exact completes_setIndex rfl (zextAddr_toNat nnn)
  · exact completes_setIndex rfl (by rw [BitVec.toNat_add, zextByte_toNat])
  · exact completes_setIndex rfl (glyphAddress_toNat _)

end Sys2Proof.Machine
end

section
/-! SUPPORT. BCD, STM and LDM (R123 to R125): inside memory they move their bytes, outside it the check raises (R45,
decisions D2 and D21). -/

namespace Sys2Proof.Machine

variable {s : State}

theorem hundreds_toNat (b : Byte) : (hundreds b).toNat = b.toNat / 100 := by
  have hb := b.isLt
  rw [hundreds, BitVec.toNat_ofNat]
  omega

theorem tens_toNat (b : Byte) : (tens b).toNat = b.toNat / 10 % 10 := by
  rw [tens, BitVec.toNat_ofNat]
  omega

theorem ones_toNat (b : Byte) : (ones b).toNat = b.toNat % 10 := by
  rw [ones, BitVec.toNat_ofNat]
  omega

/-- BCD on a range inside memory stores the three digits (R123). -/
theorem exec_bcd_inside (x : Reg) (h : s.i.toNat + 2 ≤ 4095) :
    exec (.bcd x) s =
      .next (((s.writeByte s.dataBase (hundreds (s.getV x))).writeByte (s.dataBase + 1) (tens (s.getV x))).writeByte
        (s.dataBase + 2) (ones (s.getV x))) :=
  checkRange_inside _ (Nat.succ_le_succ h)

/-- Settles O35: the three stores are to different addresses, so each digit is still there at the end. -/
theorem bcdStoresDigits : Obligations.BcdStoresDigits := by
  refine ⟨encodedAs_bcd, fun s x hin => ?_, fun s x hout => checkRange_outside _ (by decide) (Nat.succ_lt_succ hout)⟩
  have hexec := exec_bcd_inside x hin
  refine ⟨_, hexec, ?_, ?_, ?_, (instructionsWriteOnlyTheirOwn _ s _ hexec).mono fun c hc => ?_⟩
  · simpa using hundreds_toNat (s.getV x)
  · simpa using tens_toNat (s.getV x)
  · simpa using ones_toNat (s.getV x)
  · obtain ⟨r, hr, rfl⟩ := hc
    have hr' : r = 0 ∨ r = 1 ∨ r = 2 := by omega
    simpa using hr'

/-- I after STM or LDM: a move inside memory ends at 4096 at the highest, so I does not wrap (R124, R125). -/
theorem State.indexAfterMove_toNat {x : Reg} (h : s.i.toNat + x.val ≤ 4095) :
    (s.indexAfterMove x).toNat = if s.cfg.extMode = .original then s.i.toNat + x.val + 1 else s.i.toNat := by
  unfold State.indexAfterMove
  cases s.cfg.extMode with
  | original =>
    rw [if_pos rfl, BitVec.toNat_add, BitVec.toNat_ofNat]
    omega
  | extended => rfl

/-- STM on a range inside memory stores its registers and moves I by the mode (R124). -/
theorem exec_stm_inside {x : Reg} (h : s.i.toNat + x.val ≤ 4095) :
    exec (.stm x) s = .next ((storeRegs s.dataBase (regsUpTo x) s).setIndex (s.indexAfterMove x)) :=
  checkRange_inside _ (Nat.succ_le_succ h)

/-- Settles O36: the bytes are those STM is known to store, and its frame is that of every instruction. -/
theorem stmStoresRegisters : Obligations.StmStoresRegisters := by
  refine ⟨encodedAs_stm, fun s x hin => ?_, fun s x hout =>
    checkRange_outside _ (Nat.succ_ne_zero _) (Nat.succ_lt_succ hout)⟩
  have hexec := exec_stm_inside hin
  refine ⟨_, hexec, fun r => execStm_readByte hexec, s.indexAfterMove_toNat hin, ?_⟩
  exact (instructionsWriteOnlyTheirOwn _ s _ hexec).mono fun c hc => hc.symm.imp_left And.right

/-- LDM on a range inside memory loads its registers and moves I by the mode (R125). -/
theorem exec_ldm_inside {x : Reg} (h : s.i.toNat + x.val ≤ 4095) :
    exec (.ldm x) s = .next ((loadRegs s.dataBase (regsUpTo x) s).setIndex (s.indexAfterMove x)) :=
  checkRange_inside _ (Nat.succ_le_succ h)

/-- LDM that completes has loaded each of V[0] to V[X] from its own offset from the old I (R125). -/
theorem execLdm_getV {t : State} {x q : Reg} (h : execLdm x s = .next t) (hq : q.val ≤ x.val) :
    t.getV q = s.readByte (s.dataBase + q.val) := by
  obtain ⟨-, hk⟩ := checkRange_eq_next h
  cases hk
  rw [State.getV_setIndex, loadRegs_getV, if_pos ((mem_regsUpTo x q).2 hq)]

/-- Settles O37: memory does not change while the registers are loaded, and the frame is that of every instruction. -/
theorem ldmLoadsRegisters : Obligations.LdmLoadsRegisters := by
  refine ⟨encodedAs_ldm, fun s x hin => ?_, fun s x hout =>
    checkRange_outside _ (Nat.succ_ne_zero _) (Nat.succ_lt_succ hout)⟩
  have hexec := exec_ldm_inside hin
  refine ⟨_, hexec, fun r => execLdm_getV hexec, s.indexAfterMove_toNat hin, ?_⟩
  exact (instructionsWriteOnlyTheirOwn _ s _ hexec).mono fun c hc => hc.symm.imp_left And.right

end Sys2Proof.Machine
end

section
/-! SUPPORT. RND and the timer moves (R130, R133, R135, R136): one write to each component they name. -/

namespace Sys2Proof.Machine

variable {s : State}

/-- RND writes V[x] and counts the draw, whatever byte port `rand` presents (R130). -/
theorem rndWith_frame (s : State) (x : Reg) (nn draw : Byte) :
    Frame s (rndWith draw x nn s) (fun c => c = .reg x ∨ c = .randDraws) :=
  (Write.frame (.reg x (draw &&& nn) (.inl rfl))).trans (Write.frame (.draw (.inr rfl)))

theorem getV_rndWith (s : State) (x : Reg) (nn draw : Byte) : (rndWith draw x nn s).getV x = draw &&& nn := by
  simp [rndWith]

/-- Settles O39: the execution is `rndWith` on the free draw, and a byte masked with NN has no bit outside NN. -/
theorem rndMasksADraw : Obligations.RndMasksADraw := by
  refine ⟨encodedAs_rnd, fun s x nn draw => ⟨getV_rndWith s x nn draw, rndWith_frame s x nn draw⟩,
    fun s x nn => ⟨_, rfl, rfl, ?_, rfl⟩⟩
  rw [getV_rndWith, BitVec.and_assoc, BitVec.and_not_self]
  exact BitVec.and_zero

/-- Settles O41: LD.DT is one register write, ST.DT and ST.ST are one timer write each. -/
theorem timerMoves : Obligations.TimerMoves := by
  refine ⟨encodedAs_ldDt, encodedAs_stDt, encodedAs_stSt, fun s x => ⟨completes_setV rfl, ?_, ?_⟩⟩
  · exact ⟨_, rfl, rfl, Write.frame (W := fun c => c = .delayTimer) (.delay (s.getV x) rfl)⟩
  · exact ⟨_, rfl, rfl, rfl, Write.frame (W := fun c => c = .soundTimer) (.sound (s.getV x) rfl)⟩

end Sys2Proof.Machine
end

section
/-! SUPPORT. SKP and SKNP (R131, R132): the key operand names a key, or is above 15 and raises (decision D4). -/

namespace Sys2Proof.Machine

theorem withKey_of_names {b : Byte} {q : Key} (k : Key → Result) (h : b.toNat = q.val) : withKey b k = k q := by
  rcases withKey_cases b k with ⟨hout, -⟩ | ⟨_, hk⟩
  · omega
  · exact hk.trans (congrArg k (Fin.ext h))

theorem withKey_of_above {b : Byte} (k : Key → Result) (h : 15 < b.toNat) :
    withKey b k = .fault (.keyIndexOutOfRange b.toNat) := by
  rcases withKey_cases b k with ⟨-, hf⟩ | ⟨hin, -⟩
  · exact hf
  · omega

theorem exec_skp (s : State) (x : Reg) :
    exec (.skp x) s = withKey (s.getV x) fun k => .next (s.skipIf (s.keyDown k)) := rfl

theorem exec_sknp (s : State) (x : Reg) :
    exec (.sknp x) s = withKey (s.getV x) fun k => .next (s.skipIf (!s.keyDown k)) := rfl

/-- Settles O40: both are skips on the level of the key named, and raise alike when none is. -/
theorem keySkips : Obligations.KeySkips := by
  refine ⟨encodedAs_skp, encodedAs_sknp, fun s x k hk => ⟨?_, ?_⟩, fun s x hout => ⟨?_, ?_⟩⟩
  · exact completes_skip ((exec_skp s x).trans (withKey_of_names _ hk)) Iff.rfl
  · exact completes_skip ((exec_sknp s x).trans (withKey_of_names _ hk)) (by rw [Bool.not_eq_true'])
  · exact (exec_skp s x).trans (withKey_of_above _ hout)
  · exact (exec_sknp s x).trans (withKey_of_above _ hout)

end Sys2Proof.Machine
end

section
/-! SUPPORT. LD.K (R134): it commits when the latched key is found released, and otherwise stalls with the latch taken,
if it is still free, by the lowest key down (decision D9). -/

namespace Sys2Proof.Machine

variable {s : State}

/-- A latched key is found released: the one condition under which LD.K completes its wait (R134). -/
def State.LatchedKeyReleased (s : State) : Prop := ∃ k, s.pendingKey = some k ∧ s.keyDown k = false

theorem getElem?_allIndices : ∀ k : Fin 16, allIndices[k.val]? = some k := by decide

theorem lowestKeyDown_eq_none (h : ∀ k, s.keyDown k = false) : s.lowestKeyDown = none :=
  List.find?_eq_none.2 fun k _ => by simp [h k]

/-- A key that is down with none down below it is the first the search meets (R134). -/
theorem lowestKeyDown_eq_some {k : Key} (hdown : s.keyDown k = true)
    (hlow : ∀ j : Key, j.val < k.val → s.keyDown j = false) : s.lowestKeyDown = some k := by
  obtain ⟨hk, hget⟩ := List.getElem?_eq_some_iff.1 (getElem?_allIndices k)
  refine List.find?_eq_some_iff_getElem.2 ⟨hdown, k.val, hk, hget, fun j hj => ?_⟩
  have hj16 : j < 16 := hj.trans k.isLt
  obtain ⟨_, hgetj⟩ := List.getElem?_eq_some_iff.1 (getElem?_allIndices ⟨j, hj16⟩)
  rw [hgetj, hlow ⟨j, hj16⟩ hj, Bool.not_false]

theorem State.setPendingKey_of_same {p : Option Key} (h : s.pendingKey = p) : s.setPendingKey p = s := by
  rw [← h]
  rfl

/-- The committing execution (R134). -/
theorem exec_ldK_of_released {k : Key} (x : Reg) (hlatch : s.pendingKey = some k) (hup : s.keyDown k = false) :
    exec (.ldK x) s = .next ((s.setV x (BitVec.ofNat 8 k.val)).setPendingKey none) := by
  simp [exec, execLdK, hlatch, hup]

/-- Every other execution stalls: a latched key stays latched, a free latch takes the lowest key down, if any (R134). -/
theorem exec_ldK_of_not_released (x : Reg) (h : ¬ s.LatchedKeyReleased) :
    exec (.ldK x) s = .next ((s.setPendingKey (s.pendingKey.or s.lowestKeyDown)).setPc (s.pc - 2#16)) := by
  unfold exec execLdK
  cases hlatch : s.pendingKey with
  | some k =>
    have hdown : s.keyDown k = true := by
      rw [← Bool.not_eq_false]
      exact fun hup => h ⟨k, hlatch, hup⟩
    simp [hdown, State.setPendingKey_of_same hlatch]
  | none =>
    cases hlow : s.lowestKeyDown with
    | some k => rfl
    | none => simp [State.setPendingKey_of_same hlatch]

/-- A stall that leaves the latch as it was only takes pc back (R134). -/
theorem completes_ldK_stall (x : Reg) (h : ¬ s.LatchedKeyReleased)
    (hsame : s.pendingKey.or s.lowestKeyDown = s.pendingKey) :
    Completes (.ldK x) s fun t => t.pc = s.pc - 2#16 ∧ Frame s t (fun c => c = .pc) := by
  have hexec := exec_ldK_of_not_released x h
  rw [State.setPendingKey_of_same hsame.symm] at hexec
  exact ⟨_, hexec, rfl, s.setPc_frame _⟩

theorem not_latchedKeyReleased_of_free (hfree : s.pendingKey = none) : ¬ s.LatchedKeyReleased := by
  rintro ⟨k, hlatch, -⟩
  cases hfree.symm.trans hlatch

theorem not_latchedKeyReleased_of_held {k : Key} (hlatch : s.pendingKey = some k) (hdown : s.keyDown k = true) :
    ¬ s.LatchedKeyReleased := by
  rintro ⟨j, hj, hup⟩
  cases hlatch.symm.trans hj
  cases hdown.symm.trans hup

/-- LD.K on the release of the latched key leaves its index in V[x] and frees the latch (R134). -/
theorem completes_ldK_commit {k : Key} (x : Reg) (hlatch : s.pendingKey = some k) (hup : s.keyDown k = false) :
    Completes (.ldK x) s fun t => (t.getV x).toNat = k.val ∧ t.pendingKey = none ∧
      Frame s t (fun c => c = .reg x ∨ c = .keyLatch) := by
  refine ⟨_, exec_ldK_of_released x hlatch hup, ?_, rfl,
    (Write.frame (.reg x _ (.inl rfl))).trans (Write.frame (.keyLatch none (.inr rfl)))⟩
  have hk := k.isLt
  rw [State.getV_setPendingKey, State.getV_setV, if_pos rfl, BitVec.toNat_ofNat]
  omega

/-- Settles O42: the first three phases are stalls, which differ in what they leave in the latch, and the last commits. -/
theorem keyWaitPhases : Obligations.KeyWaitPhases := by
  refine ⟨encodedAs_ldK, fun s x hfree hup => ?_, fun s x k hfree hdown hlow => ?_, fun s x k hlatch hdown => ?_,
    fun s x k => completes_ldK_commit x⟩
  · exact completes_ldK_stall x (not_latchedKeyReleased_of_free hfree) (by rw [hfree, lowestKeyDown_eq_none hup]; rfl)
  · have hexec := exec_ldK_of_not_released x (not_latchedKeyReleased_of_free hfree)
    rw [hfree, lowestKeyDown_eq_some hdown hlow] at hexec
    exact ⟨_, hexec, rfl, rfl, (Write.frame (.keyLatch _ (.inr rfl))).trans (Write.frame (.pc _ (.inl rfl)))⟩
  · exact completes_ldK_stall x (not_latchedKeyReleased_of_held hlatch hdown) (by rw [hlatch]; rfl)

/-! ### The key wait as whole steps -/

@[simp] theorem getV_endInstr (s : State) (r : Reg) : (endInstr s).getV r = s.getV r := by
  rcases endInstr_cases s with ⟨-, h⟩ | ⟨-, h⟩
  · rw [h]
    rfl
  · rw [h]
    exact endIteration_frame s (.reg r) (by simp)

@[simp] theorem endInstr_pendingKey (s : State) : (endInstr s).pendingKey = s.pendingKey := by
  rcases endInstr_cases s with ⟨-, h⟩ | ⟨-, h⟩ <;> simp [h, endIteration_eq]

/-- Settles O43: the stall takes back exactly the fetch's advance of pc, and the commit leaves it. -/
theorem keyWaitStallsAtItsOwnAddress : Obligations.KeyWaitStallsAtItsOwnAddress := by
  intro s x hrun hinputs hpc hi
  by_cases hreleased : s.LatchedKeyReleased
  · obtain ⟨k, hlatch, hup⟩ := hreleased
    obtain ⟨t, -, hstep, hval, hfreed, hframe⟩ := step_of_completes hrun hinputs hpc hi
      (completes_ldK_commit (s := s.setPc (s.pc + 2#16)) x hlatch hup)
    have hadvanced : (endInstr t).pc = s.pc + 2#16 := (endInstr_pc t).trans (hframe .pc (by simp))
    have hmoved : (endInstr t).pc ≠ s.pc := by rw [hadvanced]; bv_omega
    refine ⟨_, hstep, iff_of_false hmoved (not_not_intro ⟨k, hlatch, hup⟩), fun h => absurd h hmoved, fun j hj _ => ?_⟩
    obtain rfl : k = j := Option.some.inj (hlatch.symm.trans hj)
    exact ⟨by simpa using hval, hadvanced, (endInstr_pendingKey t).trans hfreed⟩
  · obtain ⟨t, -, hstep, hback, hregs⟩ := step_of_completes (s := s)
      (P := fun t => t.pc = s.pc + 2#16 - 2#16 ∧ ∀ r, t.getV r = s.getV r) hrun hinputs hpc hi
      ⟨_, exec_ldK_of_not_released x hreleased, rfl, fun _ => rfl⟩
    have hstayed : (endInstr t).pc = s.pc := by rw [endInstr_pc, hback, BitVec.add_sub_cancel]
    exact ⟨_, hstep, iff_of_true hstayed hreleased, fun _ r => (getV_endInstr t r).trans (hregs r),
      fun k hlatch hup => absurd ⟨k, hlatch, hup⟩ hreleased⟩

end Sys2Proof.Machine
end

section
/-! SUPPORT. NOP.U (R140, R158): the execution of an opcode that no row admits. -/

namespace Sys2Proof.Machine

theorem exec_nopU (w : Word) (s : State) : exec (.nopU w) s = .next s := rfl

/-- Settles O45: the words no row admits are those that decode to NOP.U, and NOP.U answers the state it is given. -/
theorem unrecognizedOpcodesDoNothing : Obligations.UnrecognizedOpcodesDoNothing := fun w s hunrecognized =>
  ⟨(recognized_eq_false_iff w).1 hunrecognized, exec_nopU w s⟩

end Sys2Proof.Machine
end

section
/-! SUPPORT. The two timers (R25, R26, R166): what a tick takes from them, and the one instruction that writes each. -/

namespace Sys2Proof.Machine

variable {s t : State}

theorem tick_dt_toNat (s : State) : (tick s).dt.toNat = s.dt.toNat - 1 := countDown_toNat s.dt

theorem tick_st_toNat (s : State) : (tick s).st.toNat = s.st.toNat - 1 := countDown_toNat s.st

theorem tick_frame (s : State) : Frame s (tick s) (fun c => c = .delayTimer ∨ c = .soundTimer) :=
  (Write.frame (.delay _ (.inl rfl))).trans (Write.frame (.sound _ (.inr rfl)))

/-- After n ticks each timer has lost n, or is 0 (R166). -/
theorem iterate_tick_timers (n : Nat) (s : State) :
    (tick^[n] s).dt.toNat = s.dt.toNat - n ∧ (tick^[n] s).st.toNat = s.st.toNat - n := by
  induction n with
  | zero => exact ⟨rfl, rfl⟩
  | succ n ih =>
    obtain ⟨hdt, hst⟩ := ih
    rw [Function.iterate_succ_apply', tick_dt_toNat, tick_st_toNat, hdt, hst]
    exact ⟨Nat.sub_sub _ n 1, Nat.sub_sub _ n 1⟩

/-- FX15 alone may write DT (R25). -/
theorem mayWrite_delayTimer {i : Instr} (h : mayWrite s i .delayTimer) : ∃ x, i = .stDt x := by
  cases i with
  | stDt x => exact ⟨x, rfl⟩
  | _ => simp [mayWrite, Component.isDisplay] at h

/-- FX18 alone may write ST (R26). -/
theorem mayWrite_soundTimer {i : Instr} (h : mayWrite s i .soundTimer) : ∃ x, i = .stSt x := by
  cases i with
  | stSt x => exact ⟨x, rfl⟩
  | _ => simp [mayWrite, Component.isDisplay] at h

theorem exec_dt {i : Instr} (h : exec i s = .next t) (hi : ∀ x, i ≠ .stDt x) : t.dt = s.dt :=
  instructionsWriteOnlyTheirOwn i s t h .delayTimer fun hw => (mayWrite_delayTimer hw).elim hi

theorem exec_st {i : Instr} (h : exec i s = .next t) (hi : ∀ x, i ≠ .stSt x) : t.st = s.st :=
  instructionsWriteOnlyTheirOwn i s t h .soundTimer fun hw => (mayWrite_soundTimer hw).elim hi

/-- Settles O10: a tick is one subtraction on each timer, which stops at 0, and an instruction that changes a timer is the
one that may write it. -/
theorem tickDecrementsTimersFlooredAtZero : Obligations.TickDecrementsTimersFlooredAtZero := by
  refine ⟨fun s => ⟨?_, ?_, tick_frame s⟩, iterate_tick_timers, fun i s t h => ⟨exec_dt h, exec_st h⟩⟩
  · rw [tick_dt_toNat]
    split <;> omega
  · rw [tick_st_toNat]
    split <;> omega

theorem soundOn_iff (s : State) : s.soundOn = true ↔ 0 < s.st.toNat := decide_eq_true_iff

/-- Settles O44: the output is a function of ST, which no instruction but FX18 writes and a tick takes 1 from. -/
theorem soundFollowsSoundTimer : Obligations.SoundFollowsSoundTimer := by
  refine ⟨soundOn_iff, fun i s t h hi => ?_, fun s => ?_⟩
  · rw [State.soundOn, State.soundOn, exec_st h hi]
  · rw [soundOn_iff, tick_st_toNat]
    exact Nat.sub_pos_iff_lt

end Sys2Proof.Machine
end

section
/-! SUPPORT. The host's keys and events as the steps between which they come see them (R168, R171, decision D15). -/

namespace Sys2Proof.Machine

variable {s t : State}

/-! ### One input -/

/-- At an iteration boundary an event sets the tag (R168). -/
theorem arrive_event_at_boundary (h : s.batchCount = 0) (e : HostEvent) :
    arrive s (.event e) = s.setExecState (ExecState.after e s.execState) := if_pos h

/-- In the middle of an iteration an event is queued (R168). -/
theorem arrive_event_inside (h : s.batchCount ≠ 0) (e : HostEvent) :
    arrive s (.event e) = s.setPendingEvents (s.pendingEvents ++ [e]) := if_neg h

theorem ExecState.after_of_quit (e : HostEvent) : ExecState.after e .quit = .quit := by cases e <;> rfl

/-- No input of the host leaves Quit (R168). -/
theorem arrive_of_quit (h : s.execState = .quit) (x : HostInput) : (arrive s x).execState = .quit := by
  cases x with
  | keys k => exact h
  | event e =>
    by_cases hb : s.batchCount = 0
    · rw [arrive_event_at_boundary hb, h]
      exact ExecState.after_of_quit e
    · rw [arrive_event_inside hb]
      exact h

theorem State.setKeys_frame (s : State) (k : Vector Bool 16) : Frame s (s.setKeys k) (fun c => ∃ q, c = .key q) := by
  intro c hc
  cases c with
  | key q => exact (hc ⟨q, rfl⟩).elim
  | _ => rfl

/-- The levels after `keys(k)` are determined by k's bits (R171). -/
theorem keys_eq_keyLevels {k : Word} (h : ∀ q : Key, s.keyDown q = k.getLsbD q.val) : s.keys = keyLevels k := by
  refine Vector.ext fun j hj => ?_
  exact (h ⟨j, hj⟩).trans (getElem_keyLevels k ⟨j, hj⟩).symm

/-! ### The events that wait for the end of an iteration -/

/-- A waiting quit wins over whatever waits with it (R168). -/
theorem actOn_of_quit_mem : ∀ (es : List HostEvent) (s : State), .quit ∈ es → (actOn es s).execState = .quit
  | e :: es, s, h => by
    rcases List.mem_cons.1 h with hnow | hlater
    · subst hnow
      exact actOn_quit es _ rfl
    · exact actOn_of_quit_mem es _ hlater

/-- The tag after the instruction that ends an iteration (R167, R168). -/
theorem endInstr_execState_at_boundary (h : instrsPerTick s.cfg ≤ s.batchCount + 1) :
    (endInstr s).execState = (actOn s.pendingEvents s).execState := by
  rcases endInstr_cases s with ⟨hlt, -⟩ | ⟨-, hend⟩
  · omega
  · rw [hend, endIteration_eq]

/-! ### The inputs of one gap -/

theorem arriveAll_eq_foldl : ∀ (xs : List HostInput) (s : State), arriveAll xs s = xs.foldl arrive s
  | [], _ => rfl
  | x :: xs, s => arriveAll_eq_foldl xs (arrive s x)

/-- A gap that is one event at an iteration boundary (R168, log entry 4). -/
theorem takeHostInputs_of_event {e : HostEvent} {later : List (List HostInput)} (hb : s.batchCount = 0)
    (h : s.hostInputs = [.event e] :: later) :
    takeHostInputs s = { s with execState := ExecState.after e s.execState, hostInputs := later } :=
  (takeHostInputs_of_cons h).trans (arrive_event_at_boundary (s := s.setHostInputs later) hb e)

/-- A machine that is not Running once the host's inputs are in does no more in that step (R168). -/
theorem step_of_stopped (hquit : s.execState ≠ .quit) (hstop : (takeHostInputs s).execState ≠ .running) :
    step s = .next (takeHostInputs s) := by
  rw [step_of_not_quit hquit, scheduled]
  cases he : (takeHostInputs s).execState with
  | running => exact absurd he hstop
  | paused | quit => rfl

/-- A step in which an event, due alone at an iteration boundary, stops the machine (R168). -/
theorem step_of_stopping_event {e : HostEvent} {later : List (List HostInput)} (hb : s.batchCount = 0)
    (hquit : s.execState ≠ .quit) (h : s.hostInputs = [.event e] :: later)
    (hstop : ExecState.after e s.execState ≠ .running) :
    step s = .next { s with execState := ExecState.after e s.execState, hostInputs := later } := by
  have htaken := takeHostInputs_of_event hb h
  rw [step_of_stopped hquit (htaken ▸ hstop), htaken]

/-- The first input due acts before anything else of the step: the step is that of the state it leaves, with the rest of
the gap due (R171, log entry 4). -/
theorem step_of_first_input {u : State} {x : HostInput} {rest : List HostInput} {later : List (List HostInput)}
    (hs : s.execState ≠ .quit) (hu : u.execState ≠ .quit) (hsin : s.hostInputs = (x :: rest) :: later)
    (huin : u.hostInputs = rest :: later) (hx : arrive (s.setHostInputs later) x = u.setHostInputs later) :
    step s = step u := by
  have htaken : takeHostInputs s = takeHostInputs u := by
    rw [takeHostInputs_of_cons hsin, takeHostInputs_of_cons huin, arriveAll, hx]
  rw [step_of_not_quit hs, step_of_not_quit hu, htaken]

/-- Settles O12: `Quit` steps to itself, and with nothing due a paused machine takes no inputs and stays stopped. -/
theorem pausedAndQuitKeepState : Obligations.PausedAndQuitKeepState := by
  refine fun s => ⟨fun hquit => ?_, fun hpaused hinputs => ?_⟩
  · rw [step, machineStep, hquit]
  · have htaken := takeHostInputs_of_nil hinputs
    have hstopped := step_of_stopped (s := s) (by simp [hpaused]) (by simp [htaken, hpaused])
    rwa [htaken] at hstopped

/-- Settles O13: what one event does at a boundary and inside an iteration, what the waiting events do at its end, and the
steps whose gap holds or begins with an event at a boundary. -/
theorem hostEventsActAtBoundaries : Obligations.HostEventsActAtBoundaries := by
  refine ⟨fun s e hb => arrive_event_inside hb e, fun s hb => arrive_event_at_boundary hb .quit, fun s hb hrun => ?_,
    fun s hb hpaused => ?_, fun s x hquit => arrive_of_quit hquit x, fun s hend hrun hevents => ?_,
    fun s hend hevents => ?_, fun s later hb hquit hin => ?_, fun s later hb hrun hin => ?_,
    fun s rest later hb hpaused hin => ?_⟩
  · rw [arrive_event_at_boundary hb, hrun]
    rfl
  · rw [arrive_event_at_boundary hb, hpaused]
    rfl
  · rw [endInstr_execState_at_boundary hend, hevents, actOn_execState, hrun]
    rfl
  · rw [endInstr_execState_at_boundary hend, actOn_of_quit_mem _ s hevents]
  · exact step_of_stopping_event hb hquit hin nofun
  · have hstep := step_of_stopping_event hb (by simp [hrun]) hin
    rw [hrun] at hstep
    exact hstep nofun
  · refine step_of_first_input (by simp [hpaused]) nofun hin rfl ?_
    rw [arrive_event_at_boundary (s := s.setHostInputs later) hb, State.setHostInputs_execState, hpaused]
    rfl

/-- Settles O14: the levels are the bits of k, the inputs of a gap are folded in order, and a `keys(k)` due first leaves
those levels before the rest of the step. -/
theorem keysStepReplacesLevels : Obligations.KeysStepReplacesLevels := by
  refine ⟨fun s k => ⟨getElem_keyLevels k, s.setKeys_frame (keyLevels k)⟩, fun s now later hin => ?_,
    fun s u k rest later hquit hin hlevels hu => ?_⟩
  · exact (takeHostInputs_of_cons hin).trans (arriveAll_eq_foldl now _)
  · rw [keys_eq_keyLevels hlevels] at hu
    rw [hu]
    exact step_of_first_input hquit hquit hin rfl rfl

end Sys2Proof.Machine
end

section
/-! SUPPORT. The fatal conditions (R150, R162): each operation that checks something raises in one case and answers a next
state in all others. -/

namespace Sys2Proof.Machine

variable {o : Result} {s : State}

/-- The outcome is no refusal, and a fault exactly for the faults in `q`. -/
def FaultsExactly (o : Result) (q : Fault → Prop) : Prop := (∀ r, o ≠ .refused r) ∧ ∀ f, o = .fault f ↔ q f

theorem FaultsExactly.congr {q q' : Fault → Prop} (h : FaultsExactly o q) (hq : ∀ f, q f ↔ q' f) : FaultsExactly o q' :=
  ⟨h.1, fun f => (h.2 f).trans (hq f)⟩

theorem FaultsExactly.never {t : State} (h : o = .next t) : FaultsExactly o fun _ => False := by
  subst h
  exact ⟨nofun, fun _ => ⟨nofun, nofun⟩⟩

/-- A check that raises `g` under `p` and lets the instruction complete otherwise (R163). -/
theorem FaultsExactly.of_check {p : Prop} {g : Fault} (h : p ∧ o = .fault g ∨ ¬ p ∧ ∃ t, o = .next t) :
    FaultsExactly o fun f => p ∧ f = g := by
  rcases h with ⟨hp, rfl⟩ | ⟨hp, t, rfl⟩
  · exact ⟨nofun, fun f => by simp [hp, eq_comm]⟩
  · exact ⟨nofun, fun f => by simp [hp]⟩

theorem faultsExactly_ret (s : State) : FaultsExactly (exec .ret s) fun f => s.sp.val = 0 ∧ f = .stackUnderflow :=
  .of_check <| s.popPc_cases.imp_right fun ⟨_, hne, hn⟩ => ⟨hne, _, hn⟩

theorem faultsExactly_call (nnn : Addr12) (s : State) :
    FaultsExactly (exec (.call nnn) s) fun f => s.cfg.stackCapacity.toNat ≤ s.sp.val ∧ f = .stackOverflow := by
  refine .of_check ?_
  rcases s.push_cases s.pc with ⟨hfull, hf⟩ | ⟨hsp, hroom, -⟩
  · exact .inl ⟨hfull, by simp only [exec, execCall, hf, andThen_fault]⟩
  · exact .inr ⟨hroom.not_ge, _, exec_call_of_room (j := ⟨s.sp.val, hsp⟩) nnn rfl hroom⟩

theorem faultsExactly_checkRange (base len : Nat) (t : State) :
    FaultsExactly (checkRange base len (.next t)) fun f =>
      (len ≠ 0 ∧ 4096 < base + len) ∧ f = .memoryOutOfRange (max base 4096) := by
  refine .of_check ?_
  rcases checkRange_cases base len (.next t) with ⟨hlen, hout, hf⟩ | ⟨hin, hk⟩
  · exact .inl ⟨⟨hlen, hout⟩, hf⟩
  · exact .inr ⟨by omega, t, hk⟩

theorem faultsExactly_withKey (b : Byte) (g : Key → State) :
    FaultsExactly (withKey b fun k => .next (g k)) fun f => 15 < b.toNat ∧ f = .keyIndexOutOfRange b.toNat :=
  .of_check <| (withKey_cases b _).imp_right fun ⟨hb, hk⟩ => ⟨by omega, _, hk⟩

/-- The key wait completes, by the commit or by a stall (R134). -/
theorem faultsExactly_ldK (x : Reg) (s : State) : FaultsExactly (exec (.ldK x) s) fun _ => False := by
  by_cases h : s.LatchedKeyReleased
  · obtain ⟨k, hlatch, hup⟩ := h
    exact .never (exec_ldK_of_released x hlatch hup)
  · exact .never (exec_ldK_of_not_released x h)

/-- Settles O50: the check of each instruction that makes one, and the rest complete. -/
theorem instructionsFaultExactlyAsListed : Obligations.InstructionsFaultExactlyAsListed := by
  intro i s
  cases i with
  | ret => exact (faultsExactly_ret s).congr fun f => by simp
  | call nnn => exact (faultsExactly_call nnn s).congr fun f => by simp
  | drw x y n => exact (faultsExactly_checkRange s.i.toNat n.val _).congr fun f => by simp
  | bcd x => exact (faultsExactly_checkRange s.i.toNat 3 _).congr fun f => by simp
  | stm x | ldm x => exact (faultsExactly_checkRange s.i.toNat (x.val + 1) _).congr fun f => by simp [Nat.add_assoc]
  | skp x => exact (faultsExactly_withKey (s.getV x) fun k => s.skipIf (s.keyDown k)).congr fun f => by simp
  | sknp x => exact (faultsExactly_withKey (s.getV x) fun k => s.skipIf (!s.keyDown k)).congr fun f => by simp
  | ldK x => exact (faultsExactly_ldK x s).congr fun f => by simp
  | _ => exact (FaultsExactly.never rfl).congr fun f => by simp

/-- Load rejects a ROM that does not fit (R156). -/
theorem load_of_too_long {c : Config} {rom : List Byte} (hlegal : c.legal = true) (hlong : 3584 < rom.length) :
    load c (some rom) = .fault .romTooLarge := by
  have hlen : maxRomLen < rom.length := hlong
  simp [load, hlegal, hlen, raise]

/-- Settles O60: a longer ROM is rejected, and one that fits is loaded. -/
theorem longRomIsRejected : Obligations.LongRomIsRejected := by
  refine fun c rom hlegal => ⟨⟨fun hfault => ?_, load_of_too_long hlegal⟩, fun hlong s hnext => ?_⟩
  · by_contra hfits
    exact nomatch hfault.symm.trans (load_of_fits hlegal (Nat.not_lt.1 hfits))
  · exact nomatch hnext.symm.trans (load_of_too_long hlegal hlong)

end Sys2Proof.Machine
end

section
/-! SUPPORT. The step of a running machine whose pc cannot be fetched (R46, R154, decision D3). -/

namespace Sys2Proof.Machine

variable {s : State}

/-- A machine that is Running after the host's inputs, with pc beyond the range that fetches, raises with that pc. -/
theorem step_of_running_beyond (hquit : s.execState ≠ .quit) (hrun : (takeHostInputs s).execState = .running)
    (hpc : 4094 ≤ (takeHostInputs s).pc.toNat) :
    step s = .fault (.pcOutOfRange (takeHostInputs s).pc.toNat) := by
  rw [step_of_not_quit hquit, scheduled, hrun]
  rcases withFetched_cases (takeHostInputs s) (fun w t => andThen (exec (decodeWord w) t) fun u => .next (endInstr u)) with
    ⟨-, hfault⟩ | ⟨hinside, -⟩
  · exact hfault
  · omega

/-- Settles O8: the host's inputs do not move pc, so the fetch raises with the pc the step began with. -/
theorem fetchBeyondRangeFaults : Obligations.FetchBeyondRangeFaults := by
  intro s hquit hrun hpc
  have hkept : (takeHostInputs s).pc = s.pc := takeHostInputs_pc s
  have hstep := step_of_running_beyond hquit hrun (hkept.symm ▸ hpc)
  rwa [hkept] at hstep

end Sys2Proof.Machine
end
